-- ==== Sys2Proof/Syntax.lean ====
section
/-! DEFINITION. The command set of the HBP: one constructor per row of spec/opcode_table.json (30_encoding.md R91). No
command has an operand field (R90, R93). A word that is none of these rows is illegal (R92); it is no row of the table, so
no constructor, and the engine turn of Machine/Engine.lean gives it its meaning. -/

namespace Sys2Proof

/-- The five commands of R91. -/
inductive Instr where
  /-- NOP, 0x00000000 (42_control.md R165). -/
  | nop
  /-- PACK, 0x00000001 (40_pack.md R120). -/
  | pack
  /-- UNPACK, 0x00000002 (41_unpack.md R140). -/
  | unpack
  /-- CT_CLEAR, 0x00000003 (42_control.md R166). -/
  | ctClear
  /-- SRESET, 0x00000004 (42_control.md R167). -/
  | sreset
deriving DecidableEq, Repr

end Sys2Proof
end

