-- ==== Sys2Proof/Word.lean ====
section
/-! DEFINITION. The word, byte and bit-string types of the HBP (00_scope.md R5 to R7). -/

namespace Sys2Proof

/-- A 32-bit word: the only width of a register and of a bus transaction (R5, R6). -/
abbrev Word := BitVec 32

/-- An 8-bit value: one symbol (R5, SYM_W = 8) or one byte of a PackedStream. -/
abbrev Byte := BitVec 8

/-- A bit string `b_0 b_1 …`, first digit first (R7). -/
abbrev Bits := List Bool

end Sys2Proof
end

