-- ==== Sys2Proof/Decode.lean ====
section
/-! DEFINITION. Command words: the decoder, total on all 2^32 words and rejecting by name, and the encoder
(30_encoding.md R90 to R94). A command is one 32-bit word, never bytes: it reaches the block only as the data of one
32-bit bus write (R24, R94), so it has no byte order. -/

namespace Sys2Proof

/-- Why a word is no command (R92). -/
inductive DecodeReject where
  /-- RSV ≠ 0. -/
  | reservedBits (rsv : BitVec 28)
  /-- RSV = 0 and OP in 0x5 to 0xF. -/
  | reservedOp (op : BitVec 4)
deriving DecidableEq, Repr

/-- Field OP, bits 3:0 (R90). -/
def opField (w : Word) : BitVec 4 := w.extractLsb' 0 4

/-- Field RSV, bits 31:4 (R90). -/
def rsvField (w : Word) : BitVec 28 := w.extractLsb' 4 28

/-- The opcode map of R91 and the illegal words of R92. -/
def decode (w : Word) : Except DecodeReject Instr :=
  if rsvField w ≠ 0#28 then .error (.reservedBits (rsvField w))
  else match (opField w).toNat with
    | 0 => .ok .nop
    | 1 => .ok .pack
    | 2 => .ok .unpack
    | 3 => .ok .ctClear
    | 4 => .ok .sreset
    | _ => .error (.reservedOp (opField w))

/-- The word of a command: the third column of R91's table. -/
def encode : Instr → Word
  | .nop => 0x00000000#32
  | .pack => 0x00000001#32
  | .unpack => 0x00000002#32
  | .ctClear => 0x00000003#32
  | .sreset => 0x00000004#32

/-- The 32-bit command word whose low `nbits` bits are those of `w`, every bit above them 0. -/
def tableWord (nbits w : Nat) : Word := BitVec.ofNat 32 (w % 2 ^ nbits)

/-- The command the decoder reads from a word numbered as spec/opcode_table.json numbers it: one 32-bit word, bit 0 the
least significant. -/
def decodeTableWord (nbits w : Nat) : Option Instr := (decode (tableWord nbits w)).toOption

end Sys2Proof
end

