-- ==== Sys2Proof/Config.lean ====
section
/-! DEFINITION. What an implementation fixes (the parameters of 00_scope.md R5), the sizes R5 fixes, and the free
values: what the spec calls UNSPECIFIED (93_implementation_defined.md U1 to U5). -/

namespace Sys2Proof

/-- The implementation parameters of R5 that the spec leaves OPEN (P1 to P3). They are carried in `State.params` and no
step changes them, so that a statement about every state is a statement about every HBP (log 1). -/
structure Params where
  /-- SYM_DEPTH: bytes in SYM_BUF. -/
  symDepth : Nat
  /-- BYTE_DEPTH: bytes in BYTE_BUF. -/
  byteDepth : Nat
  /-- BLOCK_BASE: host address of block offset 0. -/
  blockBase : Nat
deriving DecidableEq, Repr

/-- The constraints R5 puts on the parameters. -/
abbrev Params.Legal (p : Params) : Prop :=
  p.symDepth % 4 = 0 ∧ 4 ≤ p.symDepth ∧ p.symDepth ≤ 65536 ∧
  p.byteDepth % 4 = 0 ∧ 4 ≤ p.byteDepth ∧ p.byteDepth ≤ 65536 ∧
  p.blockBase % 0x40000 = 0

/-- The example depths of 95_test_vectors.md, with the block at host address 0. DESIGN CHOICE (log 1). -/
def Params.example : Params := { symDepth := 16, byteDepth := 8, blockBase := 0 }

namespace Config

/-- NSYM: code-table entries (R5). -/
abbrev nsym : Nat := 256

/-- MAX_CODE_LEN: the longest code in bits (R5). -/
def maxCodeLen : Nat := 32

/-- Bytes of block offset space: 2^18 (R5, R65). -/
def blockSize : Nat := 0x40000

/-- FREE VALUE: byte `i` of SYM_BUF while nothing has written it since the rst of number `era` (U2, U3; log 2, log 3). -/
opaque freeSymByte (era i : Nat) : Byte

/-- FREE VALUE: byte `j` of BYTE_BUF while nothing has written it since the rst of number `era` (U2, U3; log 2, log 3). -/
opaque freeByteByte (era j : Nat) : Byte

/-- FREE VALUE: CT[c].CODE while nothing has written it since the rst of number `era` (U4, U5; log 2, log 3). -/
opaque freeCtCode (era : Nat) (c : Byte) : Word

/-- FREE VALUE: CT[c].LEN while nothing has written it since the rst of number `era` (U4; log 2, log 3). -/
opaque freeCtLen (era : Nat) (c : Byte) : BitVec 6

/-- FREE VALUE: the word the `n`-th busy-window read of undefined offsets returns, a fresh one for each read (R67, U1;
log 4). -/
opaque freeBusyWord (n : Nat) : Word

end Config
end Sys2Proof
end

