-- ==== Sys2Proof/Machine/Agents.lean ====
section
/-! DEFINITION. The types of the bus, the schedule and the command errors: what the host does to the block, what it is
answered, whose turn it is, and why a command ends early (20_memory.md R60 to R64, R72; 60_exceptions.md R180, R181). -/

namespace Sys2Proof.Machine

/-- The width of a bus transaction. Only `w32` is served (R61). -/
inductive Width where
  | w8 | w16 | w32 | w64 | burst
deriving DecidableEq, Repr

/-- One operation of the host, at a HOST address (the block offset is the address minus BLOCK_BASE, R60). -/
inductive HostOp where
  /-- A read transaction. -/
  | read (width : Width) (addr : Nat)
  /-- A write transaction with its data word. -/
  | write (width : Width) (addr : Nat) (v : Word)
  /-- The host loop `wait` of 30_encoding.md R111: reads of STATUS until bit 0 of the value read is 0 (log 12). -/
  | wait
deriving DecidableEq, Repr

/-- What the host is answered (R61 to R63). -/
inductive Resp where
  /-- OKAY to a read, with its data. -/
  | data (v : Word)
  /-- OKAY to a write. -/
  | okay
  /-- ERROR: wrong width, misaligned, or an offset outside the block; no data. -/
  | error
  /-- The address is outside the block, which takes no part in the transaction (R60; log 8). -/
  | notReached
deriving DecidableEq, Repr

/-- Whose event comes next in the one total order of R72. -/
inductive Turn where
  /-- The host's next operation. -/
  | host
  /-- The engine step of the pending command (R162). -/
  | engine
  /-- An assertion of the rst input (R210). -/
  | rst
deriving DecidableEq, Repr

/-- What a command can raise, with what its ERR_INFO is made of (R180, R181). -/
inductive CmdError where
  /-- PACK: the symbol `sym` at SYM_BUF index `idx` has no valid entry. -/
  | missingCode (sym : Byte) (idx : Nat)
  /-- UNPACK: BYTE_COUNT = 0. -/
  | truncatedStream
  /-- UNPACK: the residual's tail from bit `start` on matches no code. -/
  | invalidCode (start : Nat)
  /-- PACK, UNPACK: the result, of this size, does not fit the output buffer. -/
  | outputOverflow (size : Nat)
  /-- PACK, UNPACK: the input count exceeds the input buffer's depth. -/
  | badCount (count : Word)
  /-- The command word is no row of R91. -/
  | illegalCmd (word : Word)
deriving DecidableEq, Repr

end Sys2Proof.Machine
end

