-- ==== Sys2Proof/Machine/State.lean ====
section
/-! DEFINITION. The state of the HBP (10_state.md R52 names "the complete state of the HBP, as a model holds it"), the
other agents' plain data (R72), the state after the rst input (70_reset_and_hazards.md R210, R213), and the reasons a
step can stop. -/

namespace Sys2Proof.Machine

/-- The STATUS register's fields (R25, R52). -/
structure Status where
  /-- Bit 0: a command is accepted and not completed. -/
  busy : Bool
  /-- Bit 1: a command other than SRESET completed. -/
  done : Bool
  /-- Bit 2: sticky, a write was lost in the busy window. -/
  ovr : Bool
  /-- Bits 7:4: the result code of the last completed command (R180). -/
  err : BitVec 4
deriving DecidableEq, Repr

/-- The CONFIG register's fields (R26, R52). -/
structure ConfigReg where
  /-- Bit 0: the padding rule of PACK, false natural, true reference. -/
  padmode : Bool
  /-- Bit 1: interrupt enable. -/
  ie : Bool
deriving DecidableEq, Repr

/-- One code-table entry (R40, R52). `none` is the spec's own UNSPECIFIED ("32 bits or UNSPECIFIED"), which holds from
rst until a write; a read then gives a free value and never a fault (log 2). -/
structure CtEntry where
  code : Option Word
  len : Option (BitVec 6)
  valid : Bool
deriving DecidableEq, Repr

/-- The code table CT: 256 entries, entry `s` for symbol value `s` (R40). -/
abbrev CodeTable := Vector CtEntry Config.nsym

/-- A buffer memory: the bytes written since rst, addresses strictly rising. An unlisted byte is UNSPECIFIED (R45, R46,
R52); `Memory.wf` of Machine/Ops.lean says the form. -/
abbrev Memory := List Host.Cell

/-- The state of the whole machine. -/
structure State where
  /-- The OPEN parameters of R5, never changed by a step (log 1). -/
  params : Params
  status : Status
  config : ConfigReg
  /-- SYM_COUNT (R27). -/
  symCount : Word
  /-- BYTE_COUNT (R28). -/
  byteCount : Word
  /-- RES_PAD bits 7:0 (R29). -/
  resPad : Byte
  /-- RES_NBITS (R30). -/
  resNbits : Word
  /-- ERR_INFO (R31). -/
  errInfo : Word
  /-- The code table (R40 to R42). -/
  ct : CodeTable
  /-- SYM_BUF (R45). -/
  symBuf : Memory
  /-- BYTE_BUF (R46). -/
  byteBuf : Memory
  /-- PENDING: the accepted command word, `none` for NONE (R50). -/
  pending : Option Word
  /-- The host's operations not yet performed, in issue order (R72; log 6). -/
  prog : List HostOp
  /-- What the host has been answered, newest first (R63; log 6). -/
  received : List Resp
  /-- The turns that come next in the order of R72; once used up, the engine goes first while BUSY = 1 (log 5). -/
  sched : List Turn
  /-- The MODEL's own: how many busy-window reads have drawn a free word (U1; log 4). -/
  draws : Nat
  /-- The MODEL's own: how many times rst was asserted (R210; log 3). -/
  era : Nat
deriving DecidableEq, Repr

/-- A code-table entry after rst: VALID = 0, CODE and LEN UNSPECIFIED (R210). -/
def CtEntry.afterRst : CtEntry := { code := none, len := none, valid := false }

/-- The state right after rst of an HBP with parameters `p` (R210, R213, R214): every register 0, every entry invalid,
memories and CODE and LEN UNSPECIFIED, no command pending; nothing issued by the host, no turn scheduled. -/
def State.resetWith (p : Params) : State :=
  { params := p
    status := { busy := false, done := false, ovr := false, err := 0#4 }
    config := { padmode := false, ie := false }
    symCount := 0#32
    byteCount := 0#32
    resPad := 0#8
    resNbits := 0#32
    errInfo := 0#32
    ct := Vector.replicate Config.nsym CtEntry.afterRst
    symBuf := []
    byteBuf := []
    pending := none
    prog := []
    received := []
    sched := []
    draws := 0
    era := 0 }

/-- The state right after rst, at the example parameters (log 1). -/
def State.reset : State := State.resetWith Params.example

/-- Why the machine stops with a fault. -/
inductive Fault where
  /-- Raised by the engine turn of Machine/Engine.lean in a state with BUSY = 1 and no pending command. R52 says no
  reachable state is such a state, and no run from reset meets it. Safe (log 9). -/
  | noPendingCommand
deriving DecidableEq, Repr

/-- Why an instruction has no meaning. -/
inductive Refusal where
  /-- Raised only by an arm of Machine/Dispatch.lean for an instruction that has no meaning yet; no arm does. Safe. -/
  | notModelled (mnemonic : String)
deriving DecidableEq, Repr

end Sys2Proof.Machine
end

