-- ==== Sys2Proof/Machine/Flags.lean ====
section
/-! DEFINITION. The STATUS and CONFIG words, every rule that sets or clears a status flag (10_state.md R25, R26, R36),
the error codes and information words (60_exceptions.md R180, R181), and the irq output (R192). -/

namespace Sys2Proof.Machine

/-- What STATUS reads: BUSY bit 0, DONE bit 1, OVR bit 2, bit 3 zero, ERR bits 7:4, bits 31:8 zero (R25). -/
def statusWord (st : Status) : Word :=
  0#24 ++ st.err ++ 0#1 ++ BitVec.ofBool st.ovr ++ BitVec.ofBool st.done ++ BitVec.ofBool st.busy

/-- What CONFIG reads: PADMODE bit 0, IE bit 1, the rest zero (R26). -/
def configWord (c : ConfigReg) : Word := 0#30 ++ BitVec.ofBool c.ie ++ BitVec.ofBool c.padmode

/-- What a write of `w` leaves in CONFIG (R26): the reserved bits are ignored. -/
def configOfWord (w : Word) : ConfigReg := { padmode := w.getLsbD 0, ie := w.getLsbD 1 }

/-- A host write of `w` to STATUS (R25): bit 1 clears DONE and ERR, bit 2 clears OVR, no other bit matters. -/
def statusW1c (w : Word) (st : Status) : Status :=
  { busy := st.busy
    done := st.done && !w.getLsbD 1
    ovr := st.ovr && !w.getLsbD 2
    err := if w.getLsbD 1 then 0#4 else st.err }

/-- STATUS at acceptance of a command (42_control.md R161): OVR is unchanged. -/
def statusAccept (st : Status) : Status := { st with busy := true, done := false, err := 0#4 }

/-- STATUS at completion with result `code` (42_control.md R162): OVR is unchanged. -/
def statusComplete (code : BitVec 4) (st : Status) : Status := { st with busy := false, done := true, err := code }

/-- STATUS after a host write lost in the busy window (20_memory.md R68). -/
def statusOverrun (st : Status) : Status := { st with ovr := true }

/-- STATUS after either reset (R213). -/
def statusReset : Status := { busy := false, done := false, ovr := false, err := 0#4 }

/-- CONFIG after either reset (R213). -/
def configReset : ConfigReg := { padmode := false, ie := false }

/-- The code of an error, as STATUS.ERR holds it (R180). -/
def errCode : CmdError → BitVec 4
  | .missingCode _ _ => 1#4
  | .truncatedStream => 2#4
  | .invalidCode _ => 3#4
  | .outputOverflow _ => 4#4
  | .badCount _ => 5#4
  | .illegalCmd _ => 6#4

/-- The information word of an error, as ERR_INFO holds it (R181). -/
def errInfoOf : CmdError → Word
  | .missingCode sym idx => (sym.setWidth 32 <<< 16) ||| BitVec.ofNat 32 idx
  | .truncatedStream => 0#32
  | .invalidCode start => BitVec.ofNat 32 start
  | .outputOverflow size => BitVec.ofNat 32 size
  | .badCount count => count
  | .illegalCmd word => word

/-- The name R180 gives a code; codes 7 to 15 are never written and have none (E2). -/
def errName (c : BitVec 4) : Option String :=
  match c.toNat with
  | 0 => some "OK"
  | 1 => some "MISSING_CODE"
  | 2 => some "TRUNCATED_STREAM"
  | 3 => some "INVALID_CODE"
  | 4 => some "OUTPUT_OVERFLOW"
  | 5 => some "BAD_COUNT"
  | 6 => some "ILLEGAL_CMD"
  | _ => none

/-- The irq output, a level (R192): DONE AND IE. -/
def irqOut (s : State) : Bool := s.status.done && s.config.ie

end Sys2Proof.Machine
end

