-- ==== Sys2Proof/Machine/Ops.lean ====
section
/-! DEFINITION. The named operations over the buffer memories, the code table and the registers; the command lifecycle
(acceptance R161, completion R162); the error report, which is what this block has for taking an exception, and its
acknowledgement (60_exceptions.md R185, R187); the two resets (70_reset_and_hazards.md R210, R211). -/

namespace Sys2Proof.Machine

/-! ### Buffer memories (R45, R46) -/

/-- The canonical form of a memory: addresses strictly rising, so no address twice. No listed byte can equal what an
unlisted one reads as, since that is UNSPECIFIED and no byte value. -/
abbrev Memory.wf (m : Memory) : Prop := m.Pairwise (fun x y => x.1 < y.1)

/-- The byte at `a`, or `none` where it is UNSPECIFIED (never written since rst). -/
def Memory.read? : Memory → Nat → Option Byte
  | [], _ => none
  | c :: m, a => if a = c.1 then some c.2 else Memory.read? m a

/-- Write one byte, keeping the canonical form. -/
def Memory.write : Memory → Nat → Byte → Memory
  | [], a, v => [(a, v)]
  | c :: m, a, v =>
    if a < c.1 then (a, v) :: c :: m
    else if a = c.1 then (a, v) :: m
    else c :: Memory.write m a v

/-- Write bytes at `a`, `a + 1`, …. -/
def Memory.writeBytes : Memory → Nat → List Byte → Memory
  | m, _, [] => m
  | m, a, v :: vs => Memory.writeBytes (Memory.write m a v) (a + 1) vs

/-- Byte `n` of a word: bits `[8n+7 : 8n]`, the lane order of 20_memory.md R66. -/
def lane (v : Word) (n : Nat) : Byte := v.extractLsb' (8 * n) 8

/-- `WriteWord(W + 4k, v)` of R66: all four lanes inside the depth, no effect beyond it. -/
def writeWindow (depth : Nat) (m : Memory) (k : Nat) (v : Word) : Memory :=
  if 4 * k < depth then m.writeBytes (4 * k) [lane v 0, lane v 1, lane v 2, lane v 3] else m

/-! ### Code table (R40 to R42) -/

/-- Entry `c` of the code table. -/
def ctGet (t : CodeTable) (c : Byte) : CtEntry := t[c.toNat]'c.isLt

/-- Replace entry `c` of the code table. -/
def ctSet (t : CodeTable) (c : Byte) (e : CtEntry) : CodeTable := t.set c.toNat e c.isLt

/-- Apply `f` to every entry of the code table. -/
def ctMap (f : CtEntry → CtEntry) (t : CodeTable) : CodeTable := ⟨(t.toList.map f).toArray, by simp⟩

/-- A host write of `w` to CT_CODE: the 32 bits as written (R41). -/
def entrySetCode (w : Word) (e : CtEntry) : CtEntry := { e with code := some w }

/-- A host write of `w` to CT_META: LEN as written, VALID only with a legal length (R42). -/
def entrySetMeta (w : Word) (e : CtEntry) : CtEntry :=
  { e with
    len := some (w.extractLsb' 0 6)
    valid := w.getLsbD 31 && decide (1 ≤ (w.extractLsb' 0 6).toNat)
      && decide ((w.extractLsb' 0 6).toNat ≤ Config.maxCodeLen) }

/-- An entry after CT_CLEAR (R166). -/
def entryCleared : CtEntry := { code := some 0#32, len := some 0#6, valid := false }

/-- An entry after SRESET: VALID cleared, CODE and LEN kept (R211). -/
def entryInvalidate (e : CtEntry) : CtEntry := { e with valid := false }

/-! ### Command lifecycle -/

/-- `Accept(w)` of 42_control.md R161. -/
def accept (w : Word) (s : State) : State := { s with pending := some w, status := statusAccept s.status }

/-- The completion of R162 with a result code and an information word: what ends every command but SRESET. -/
def complete (code : BitVec 4) (info : Word) (s : State) : State :=
  { s with errInfo := info, status := statusComplete code s.status, pending := none }

/-- The part of `ErrorReport` that depends on the command (R185): PACK and UNPACK zero their output count and their
result registers; the output buffer is left as it was. `none` is an illegal word. -/
def zeroResults (cmd : Option Instr) (s : State) : State :=
  match cmd with
  | some .pack => { s with byteCount := 0#32, resPad := 0#8, resNbits := 0#32 }
  | some .unpack => { s with symCount := 0#32, resPad := 0#8, resNbits := 0#32 }
  | _ => s

/-- TAKING AN ERROR: `ErrorReport` and the completion it ends in (R185, R186), the one operation every failing command
goes through. -/
def errorReport (cmd : Option Instr) (e : CmdError) (s : State) : State :=
  complete (errCode e) (errInfoOf e) (zeroResults cmd s)

/-- ACKNOWLEDGING IT: a host write of `w` to STATUS (R25, R187). ERR_INFO keeps its value. -/
def writeStatus (w : Word) (s : State) : State := { s with status := statusW1c w s.status }

/-- A host write lost in the busy window (R68, R188). -/
def overrun (s : State) : State := { s with status := statusOverrun s.status }

/-! ### Resets -/

/-- Every register of 10_state.md R22 at its reset value and no command pending: what the two resets share (R210,
R211, R213). -/
def resetRegisters (s : State) : State :=
  { s with
    status := statusReset
    config := configReset
    symCount := 0#32
    byteCount := 0#32
    resPad := 0#8
    resNbits := 0#32
    errInfo := 0#32
    pending := none }

/-- `SoftReset` of R211: registers and VALID bits; CODE, LEN and both buffers are kept. -/
def softReset (s : State) : State :=
  { resetRegisters s with ct := ctMap entryInvalidate s.ct }

/-- `HardReset` of R210: as `softReset`, and CODE, LEN and every buffer byte become UNSPECIFIED anew (a new `era`). The
parameters, the host's own program and the rest of the schedule are outside the block. -/
def hardReset (s : State) : State :=
  { resetRegisters s with
    ct := Vector.replicate Config.nsym CtEntry.afterRst
    symBuf := []
    byteBuf := []
    era := s.era + 1 }

end Sys2Proof.Machine
end

