-- ==== Sys2Proof/Machine/Operands.lean ====
section
/-! DEFINITION. What commands and bus reads read: buffer bytes, code-table fields, the code of a symbol, the match of a
bit string, the bits of a byte (00_scope.md R8, R9; 20_memory.md R66, R71; 30_encoding.md R101; 41_unpack.md R144). A
read of an UNSPECIFIED byte or field gives its free value (U2 to U5; log 2). -/

namespace Sys2Proof.Machine

/-- `SymRead(i)` (R8). -/
def symRead (s : State) (i : Nat) : Byte := (s.symBuf.read? i).getD (Config.freeSymByte s.era i)

/-- `ByteRead(j)` (R8). -/
def byteRead (s : State) (j : Nat) : Byte := (s.byteBuf.read? j).getD (Config.freeByteByte s.era j)

/-- `CT[c].VALID`. -/
def ctValid (s : State) (c : Byte) : Bool := (ctGet s.ct c).valid

/-- `CT[c].CODE`. -/
def ctCode (s : State) (c : Byte) : Word := (ctGet s.ct c).code.getD (Config.freeCtCode s.era c)

/-- `CT[c].LEN`. -/
def ctLen (s : State) (c : Byte) : BitVec 6 := (ctGet s.ct c).len.getD (Config.freeCtLen s.era c)

/-- What CT_META[c] reads: VALID bit 31, bits 30:6 zero, LEN bits 5:0 (R42). -/
def metaWord (valid : Bool) (len : BitVec 6) : Word := BitVec.ofBool valid ++ 0#25 ++ len

/-- `ReadWord(W + 4k)` of R66 over a buffer read byte by byte: little-endian lanes, 0 beyond the depth. -/
def readWindow (depth : Nat) (rd : Nat → Byte) (k : Nat) : Word :=
  if 4 * k < depth then rd (4 * k + 3) ++ rd (4 * k + 2) ++ rd (4 * k + 1) ++ rd (4 * k) else 0#32

/-- The low `len` bits of a word, most significant first: `c_j = CODE[L-1-j]` (R9). -/
def codeDigits (len : Nat) (w : Word) : Bits := (List.range len).map fun j => w.getLsbD (len - 1 - j)

/-- `code(c)` (R9), for an entry with VALID = 1. R9 leaves the code of an entry with VALID = 0 undefined. DESIGN CHOICE
(log 19): the same expression over its LEN and CODE is taken there, and nothing of the machine reads it. -/
def codeBits (s : State) (c : Byte) : Bits := codeDigits (ctLen s c).toNat (ctCode s c)

/-- Every symbol value, least first. -/
def allSymbols : List Byte := (List.range Config.nsym).map (BitVec.ofNat 8)

/-- `Match(acc)` (R144): the least symbol with a valid entry of length `|acc|` whose code is `acc`. -/
def matchCode (s : State) (acc : Bits) : Option Byte :=
  allSymbols.find? fun c => ctValid s c && ((ctLen s c).toNat == acc.length && codeBits s c == acc)

/-- The bits of a byte, bit 7 first (R101). -/
def byteBits (b : Byte) : Bits := (List.range 8).map fun j => b.getLsbD (7 - j)

/-- The byte whose bits, bit 7 first, are the first eight of a string: `Σ b_j << (7 - j)` (R101). -/
def byteOfBits (bs : Bits) : Byte :=
  (bs.take 8).foldl (fun (acc : Byte) b => (acc <<< 1) ||| (BitVec.ofBool b).setWidth 8) 0#8

end Sys2Proof.Machine
end

