-- ==== Sys2Proof/Machine/Bus.lean ====
section
/-! DEFINITION. Host bus transactions: the address map, the read and write rule of every register and window, the busy
window, and one turn of the host (20_memory.md R60 to R68; 10_state.md R22 to R42). -/

namespace Sys2Proof.Machine

/-- What an aligned block offset names (R65). -/
inductive Target where
  | id | cmd | status | config | symCount | byteCount | resPad | resNbits | errInfo
  | capsSym | capsByte | capsCode
  /-- CT_CODE[c]. -/
  | ctCode (c : Byte)
  /-- CT_META[c]. -/
  | ctMeta (c : Byte)
  /-- Word `k` of the SYM_BUF window. -/
  | symWindow (k : Nat)
  /-- Word `k` of the BYTE_BUF window. -/
  | byteWindow (k : Nat)
  /-- A reserved offset (R35). -/
  | reserved
deriving DecidableEq, Repr

/-- The registers of R22, by word index (offset / 4). -/
def registerTarget (k : Nat) : Target :=
  match k with
  | 0 => .id
  | 1 => .cmd
  | 2 => .status
  | 3 => .config
  | 4 => .symCount
  | 5 => .byteCount
  | 6 => .resPad
  | 7 => .resNbits
  | 8 => .errInfo
  | 9 => .capsSym
  | 10 => .capsByte
  | 11 => .capsCode
  | _ => .reserved

/-- The code table: CT_CODE[c] at 0x400 + 8c, CT_META[c] at 0x404 + 8c; `d` is the offset from 0x400 (R41, R42). -/
def tableTarget (d : Nat) : Target :=
  if d % 8 < 4 then .ctCode (BitVec.ofNat 8 (d / 8)) else .ctMeta (BitVec.ofNat 8 (d / 8))

/-- The address map of R65, for an aligned offset below 0x40000. -/
def targetOf (a : Nat) : Target :=
  if a < 0x400 then registerTarget (a / 4)
  else if a < 0xC00 then tableTarget (a - 0x400)
  else if a < 0x10000 then .reserved
  else if a < 0x20000 then .symWindow ((a - 0x10000) / 4)
  else if a < 0x30000 then .byteWindow ((a - 0x20000) / 4)
  else .reserved

/-- `IsReserved` of R64. -/
def isReserved (t : Target) : Bool := t == .reserved

/-- `DefinedWhileBusy` of R64. -/
def definedWhileBusy (t : Target) : Bool :=
  match t with
  | .id | .cmd | .status | .config | .capsSym | .capsByte | .capsCode | .reserved => true
  | _ => false

/-- The constant ID reads (R23). -/
def idWord : Word := 0x48425001#32

/-- The constant CAPS_CODE reads: SYM_W in bits 15:8, MAX_CODE_LEN in bits 7:0 (R34). -/
def capsCodeWord : Word := 0x00000820#32

/-- `ReadWord` of R64: the read rule of each register (R23 to R34, R41, R42) and window (R66). -/
def readTarget (t : Target) (s : State) : Word :=
  match t with
  | .id => idWord
  | .cmd => 0#32
  | .status => statusWord s.status
  | .config => configWord s.config
  | .symCount => s.symCount
  | .byteCount => s.byteCount
  | .resPad => s.resPad.setWidth 32
  | .resNbits => s.resNbits
  | .errInfo => s.errInfo
  | .capsSym => BitVec.ofNat 32 s.params.symDepth
  | .capsByte => BitVec.ofNat 32 s.params.byteDepth
  | .capsCode => capsCodeWord
  | .ctCode c => ctCode s c
  | .ctMeta c => metaWord (ctValid s c) (ctLen s c)
  | .symWindow k => readWindow s.params.symDepth (symRead s) k
  | .byteWindow k => readWindow s.params.byteDepth (byteRead s) k
  | .reserved => 0#32

/-- `WriteWord` of R64: the write rule of each register and window. A read-only register ignores the write. -/
def writeTarget (t : Target) (v : Word) (s : State) : State :=
  match t with
  | .cmd => accept v s
  | .status => writeStatus v s
  | .config => { s with config := configOfWord v }
  | .symCount => { s with symCount := v }
  | .byteCount => { s with byteCount := v }
  | .ctCode c => { s with ct := ctSet s.ct c (entrySetCode v (ctGet s.ct c)) }
  | .ctMeta c => { s with ct := ctSet s.ct c (entrySetMeta v (ctGet s.ct c)) }
  | .symWindow k => { s with symBuf := writeWindow s.params.symDepth s.symBuf k v }
  | .byteWindow k => { s with byteBuf := writeWindow s.params.byteDepth s.byteBuf k v }
  | .id | .resPad | .resNbits | .errInfo | .capsSym | .capsByte | .capsCode | .reserved => s

/-- A transaction the block answers with ERROR (R61, R62, R64). -/
def isBadAccess (width : Width) (a : Nat) : Bool :=
  width != .w32 || a % 4 != 0 || decide (Config.blockSize ≤ a)

/-- `HostAccess(READ, a)` of R64. A read of an offset that is undefined while BUSY = 1 draws a fresh free word (R67).
DESIGN CHOICE (log 16): so does a read of a window word beyond the depth, where D28 says such a word reads 0. -/
def busRead (width : Width) (a : Nat) (s : State) : State × Resp :=
  if isBadAccess width a then (s, .error)
  else if s.status.busy && !definedWhileBusy (targetOf a) then
    ({ s with draws := s.draws + 1 }, .data (Config.freeBusyWord s.draws))
  else (s, .data (readTarget (targetOf a) s))

/-- `HostAccess(WRITE, a, v)` of R64. DESIGN CHOICE (log 16): while BUSY = 1 a write to a window word beyond the depth sets
OVR as R64 and R68 say, where D28 says such a word never sets it. -/
def busWrite (width : Width) (a : Nat) (v : Word) (s : State) : State × Resp :=
  if isBadAccess width a then (s, .error)
  else if isReserved (targetOf a) then (s, .okay)
  else if s.status.busy && targetOf a != .status then (overrun s, .okay)
  else (writeTarget (targetOf a) v s, .okay)

/-- The block offset of a host address, `none` where the address does not reach the block (R60). -/
def hostOffset (p : Params) (addr : Nat) : Option Nat :=
  if p.blockBase ≤ addr ∧ addr < p.blockBase + Config.blockSize then some (addr - p.blockBase) else none

/-- The host is answered. -/
def answer (r : Resp) (s : State) : State := { s with received := r :: s.received }

/-- Perform a transaction at a host address and answer it. -/
def transact (addr : Nat) (access : Nat → State → State × Resp) (s : State) : State :=
  match hostOffset s.params addr with
  | none => answer .notReached s
  | some a => answer (access a s).2 (access a s).1

/-- Whether a read of STATUS ends the loop `wait` of R111: bit 0 of the value read is 0. -/
def waitEnds (r : Resp) : Bool :=
  match r with
  | .data v => !v.getLsbD 0
  | _ => false

/-- One event of the host (R72): its next operation, in issue order. `wait` stays the next operation until a read of
STATUS shows BUSY = 0. A host with nothing to do does nothing. -/
def hostTurn (s : State) : State :=
  match s.prog with
  | [] => s
  | .read width addr :: rest => transact addr (busRead width) { s with prog := rest }
  | .write width addr v :: rest => transact addr (fun a => busWrite width a v) { s with prog := rest }
  | .wait :: rest =>
    let r := (busRead .w32 0x008 s).2
    answer r (if waitEnds r then { s with prog := rest } else s)

end Sys2Proof.Machine
end

