-- ==== Sys2Proof/Machine/Control.lean ====
section
/-! DEFINITION. The control commands NOP, CT_CLEAR and SRESET, and the illegal words (42_control.md R165 to R168). -/

namespace Sys2Proof.Machine

/-- NOP (R165): completion and nothing else. -/
def execNop (s : State) : Host.Outcome State Fault Refusal := .next (complete 0#4 0#32 s)

/-- CT_CLEAR (R166): every entry's CODE, LEN and VALID become 0; then completion. -/
def execCtClear (s : State) : Host.Outcome State Fault Refusal :=
  .next (complete 0#4 0#32 { s with ct := ctMap (fun _ => entryCleared) s.ct })

/-- SRESET (R167): `SoftReset`; it does not set DONE, and nothing is written after it (R162). -/
def execSreset (s : State) : Host.Outcome State Fault Refusal := .next (softReset s)

/-- An illegal word (R168): ILLEGAL_CMD, ERR_INFO the word, no other effect. -/
def execIllegal (w : Word) (s : State) : Host.Outcome State Fault Refusal :=
  .next (errorReport none (.illegalCmd w) s)

end Sys2Proof.Machine
end

