-- ==== Sys2Proof/Machine/Pack.lean ====
section
/-! DEFINITION. PACK, the bit-packer (40_pack.md R120 to R128). -/

namespace Sys2Proof.Machine

/-- What a successful PACK computes: the stream, header byte included, the padding count and the number of code bits. -/
structure PackOut where
  bytes : List Byte
  pad : Nat
  nbits : Nat
deriving DecidableEq, Repr

/-- `PadLen(L, PADMODE)` (R122): natural 0 to 7, reference 1 to 8. -/
def padLen (nbits : Nat) (reference : Bool) : Nat :=
  if reference then 8 - nbits % 8 else (8 - nbits % 8) % 8

/-- `n` payload bytes from a bit string, eight bits a byte, first bit in bit 7 (30_encoding.md R101). -/
def packBytes : Nat → Bits → List Byte
  | 0, _ => []
  | n + 1, bs => byteOfBits bs :: packBytes n (bs.drop 8)

/-- The lowest index, counted from `i`, of a symbol without a valid entry, and that symbol (R120, R181). -/
def firstMissing (s : State) : Nat → List Byte → Option (Nat × Byte)
  | _, [] => none
  | i, c :: cs => if ctValid s c then firstMissing s (i + 1) cs else some (i, c)

/-- The input of PACK: SYM_BUF bytes 0 to SYM_COUNT−1. -/
def packInput (s : State) : List Byte := (List.range s.symCount.toNat).map (symRead s)

/-- The code bits of the input, in input order (R123). -/
def packCodeBits (s : State) : Bits := (packInput s).flatMap (codeBits s)

/-- The pseudocode of R120, as a function of the state: the error raised, or the result. -/
def packRun (s : State) : Except CmdError PackOut :=
  if s.params.symDepth < s.symCount.toNat then .error (.badCount s.symCount)
  else match firstMissing s 0 (packInput s) with
    | some (i, c) => .error (.missingCode c i)
    | none =>
      let bits := packCodeBits s
      let p := padLen bits.length s.config.padmode
      let nbytes := 1 + (bits.length + p) / 8
      if s.params.byteDepth < nbytes then .error (.outputOverflow nbytes)
      else .ok
        { bytes := BitVec.ofNat 8 p :: packBytes (nbytes - 1) (bits ++ List.replicate p false)
          pad := p
          nbits := bits.length }

/-- The writes of a successful PACK (R124, R125): BYTE_BUF from byte 0, BYTE_COUNT, RES_PAD, RES_NBITS. -/
def packStore (r : PackOut) (s : State) : State :=
  { s with
    byteBuf := s.byteBuf.writeBytes 0 r.bytes
    byteCount := BitVec.ofNat 32 r.bytes.length
    resPad := BitVec.ofNat 8 r.pad
    resNbits := BitVec.ofNat 32 r.nbits }

/-- PACK (R120): the engine step of the command, completion included (R162). -/
def execPack (s : State) : Host.Outcome State Fault Refusal :=
  match packRun s with
  | .error e => .next (errorReport (some .pack) e s)
  | .ok r => .next (complete 0#4 0#32 (packStore r s))

end Sys2Proof.Machine
end

