-- ==== Sys2Proof/Machine/Unpack.lean ====
section
/-! DEFINITION. UNPACK, the bit-unpacker (41_unpack.md R140 to R151). -/

namespace Sys2Proof.Machine

/-- What a successful UNPACK computes: the symbols, the header byte and the number of residual bits. -/
structure UnpackOut where
  symbols : List Byte
  pad : Byte
  nbits : Nat
deriving DecidableEq, Repr

/-- The greedy scan of R145 over the residual bits that are left. `k` is the index of the next bit, `start` that of the
accumulator's first bit, `acc` the accumulator; the answer is the symbols, or the `start` of a tail that matches nothing. -/
def scan (s : State) : (k start : Nat) → (acc : Bits) → (rest : Bits) → Except Nat (List Byte)
  | _, start, acc, [] => if acc = [] then .ok [] else .error start
  | k, start, acc, b :: bs =>
    match matchCode s (acc ++ [b]) with
    | some c => (scan s (k + 1) (k + 1) [] bs).map (c :: ·)
    | none => scan s (k + 1) start (acc ++ [b]) bs

/-- The payload of an `n`-byte stream: the bits of BYTE_BUF bytes 1 to n−1, bit 7 first (R101). -/
def payloadBits (s : State) (n : Nat) : Bits := (List.range (n - 1)).flatMap fun j => byteBits (byteRead s (1 + j))

/-- The residual (R143): the payload without its last `p` bits, empty where `p` exceeds the payload. -/
def residualBits (s : State) (n p : Nat) : Bits := (payloadBits s n).take (8 * (n - 1) - p)

/-- The pseudocode of R140, as a function of the state: the error raised, or the result. -/
def unpackRun (s : State) : Except CmdError UnpackOut :=
  let n := s.byteCount.toNat
  if s.params.byteDepth < n then .error (.badCount s.byteCount)
  else if n < 1 then .error .truncatedStream
  else
    let p := byteRead s 0
    match scan s 0 0 [] (residualBits s n p.toNat) with
    | .error start => .error (.invalidCode start)
    | .ok out =>
      if s.params.symDepth < out.length then .error (.outputOverflow out.length)
      else .ok { symbols := out, pad := p, nbits := 8 * (n - 1) - p.toNat }

/-- The writes of a successful UNPACK (R146): SYM_BUF from byte 0, SYM_COUNT, RES_PAD, RES_NBITS. -/
def unpackStore (r : UnpackOut) (s : State) : State :=
  { s with
    symBuf := s.symBuf.writeBytes 0 r.symbols
    symCount := BitVec.ofNat 32 r.symbols.length
    resPad := r.pad
    resNbits := BitVec.ofNat 32 r.nbits }

/-- UNPACK (R140): the engine step of the command, completion included (R162). -/
def execUnpack (s : State) : Host.Outcome State Fault Refusal :=
  match unpackRun s with
  | .error e => .next (errorReport (some .unpack) e s)
  | .ok r => .next (complete 0#4 0#32 (unpackStore r s))

end Sys2Proof.Machine
end

