-- ==== Sys2Proof/Machine/Dispatch.lean ====
section
/-! DEFINITION. The dispatch of 42_control.md R164: one arm per command. Each meaning is the whole engine step of its
command, completion included. -/

namespace Sys2Proof.Machine

def exec (i : Instr) (s : State) : Host.Outcome State Fault Refusal :=
  match i with
  | .nop => Sys2Proof.Machine.execNop s
  | .pack => Sys2Proof.Machine.execPack s
  | .unpack => Sys2Proof.Machine.execUnpack s
  | .ctClear => Sys2Proof.Machine.execCtClear s
  | .sreset => Sys2Proof.Machine.execSreset s

end Sys2Proof.Machine
end

