-- ==== Sys2Proof/Machine/Engine.lean ====
section
/-! DEFINITION. The engine step and the order of events (42_control.md R160, R162, R164; 20_memory.md R72;
70_reset_and_hazards.md R212, R226). -/

namespace Sys2Proof.Machine

/-- `EngineStep` of R162 for an accepted command: run the pending word, a command by its meaning and any other word as
illegal (R164). -/
def engineStep (s : State) : Host.Outcome State Fault Refusal :=
  match s.pending with
  | none => .fault .noPendingCommand
  | some w =>
    match decode w with
    | .ok i => exec i s
    | .error _ => execIllegal w s

/-- Whose event is next: the schedule's, and once it is used up the engine's while BUSY = 1, so that every accepted
command completes (R226), else the host's. -/
def nextTurn (s : State) : Turn :=
  match s.sched with
  | t :: _ => t
  | [] => if s.status.busy then .engine else .host

/-- The schedule moves on by one turn. -/
def passTurn (s : State) : State := { s with sched := s.sched.tail }

/-- One event of R72. The engine step is enabled exactly when BUSY = 1 (R162): a turn given to an idle engine passes
with no event. -/
def takeTurn (t : Turn) (s : State) : Host.Outcome State Fault Refusal :=
  match t with
  | .host => .next (hostTurn s)
  | .rst => .next (hardReset s)
  | .engine => if s.status.busy then engineStep s else .next s

/-- The state in which the engine's step of command word `w` is the very next event: `w` accepted (R161), the next turn
the engine's. -/
def presentCommand (w : Word) (s : State) : State :=
  { accept w s with sched := .engine :: s.sched }

end Sys2Proof.Machine
end

