-- ==== Sys2Proof/Machine/Step.lean ====
section
/-! DEFINITION. One step of the machine: the next event of the one total order of 20_memory.md R72. -/

namespace Sys2Proof.Machine

/-- One event: a host transaction, an engine step or an assertion of rst, whichever is next. -/
def step (s : State) : Host.Outcome State Fault Refusal := takeTurn (nextTurn s) (passTurn s)

/-- `s` with a command accepted and its engine step the next event. The HBP fetches nothing (R21, R65): a command comes
from a host write to CMD, for whose acceptance this stands (log 6). -/
def State.withFetchWord (s : State) (nbits w : Nat) : State := presentCommand (tableWord nbits w) s

end Sys2Proof.Machine
end

