-- ==== Sys2Proof/Machine/Hazard.lean ====
section
/-! DEFINITION. The busy window of 70_reset_and_hazards.md R220, which is the host's and not the block's: it opens when a
CMD write is accepted and ends when the host OBSERVES completion, not when BUSY falls. Whether it is open is no field of
State; it is carried along a run by `windowAfter`. -/

namespace Sys2Proof.Machine

/-- The window of R220 is open: a command is accepted (`unobserved`) whose completion the host has not observed. While
BUSY = 1 nothing can have been observed. -/
def inWindow (unobserved : Bool) (s : State) : Bool := unobserved || s.status.busy

/-- The operation reads STATUS. -/
def readsStatus (p : Params) (op : HostOp) : Bool :=
  match op with
  | .wait => true
  | .read width addr => width == .w32 && hostOffset p addr == some 0x008
  | .write _ _ _ => false

/-- The next event is a STATUS read with BUSY = 0. -/
def statusReadSeesIdle (s : State) : Bool :=
  match nextTurn s, s.prog with
  | .host, op :: _ => readsStatus s.params op && !s.status.busy
  | _, _ => false

/-- Whether a completion is unobserved after the event that leads from `s` to `t` (R220). The window opens with BUSY and
closes by a STATUS read with BUSY = 0 or by irq high; that rst closes it too is the model's reading (log 18). -/
def windowAfter (unobserved : Bool) (s t : State) : Bool :=
  match nextTurn s with
  | .rst => false
  | .host | .engine => (inWindow unobserved s || t.status.busy) && !statusReadSeesIdle s && !irqOut t

/-- The host operation respects the busy window of R220: in it, it writes nothing but STATUS (or a reserved offset, which
is no register) and reads only ID, CMD, STATUS, CONFIG, the CAPS registers and reserved offsets. Every read counts as a
use of its value (log 18). -/
def respectsBusy (unobserved : Bool) (s : State) (op : HostOp) : Bool :=
  !inWindow unobserved s ||
  match op with
  | .wait => true
  | .read _ addr => match hostOffset s.params addr with
    | none => true
    | some a => definedWhileBusy (targetOf a)
  | .write _ addr _ => match hostOffset s.params addr with
    | none => true
    | some a => isReserved (targetOf a) || targetOf a == .status

end Sys2Proof.Machine
end

