-- ==== Sys2Proof/Machine/HostProgram.lean ====
section
/-! DEFINITION. Host programs: the notation and the pseudo-instructions of 30_encoding.md R110 and R111, and the two
words that hold a code string (R104). Offsets are block offsets; the host address adds BLOCK_BASE (R60). -/

namespace Sys2Proof.Machine

/-- Block offsets of the registers a host program names (10_state.md R22). -/
def offCmd : Nat := 0x004
def offStatus : Nat := 0x008
def offConfig : Nat := 0x00C
def offSymCount : Nat := 0x010
def offByteCount : Nat := 0x014
/-- CT_CODE[c] (R41). -/
def offCtCode (c : Byte) : Nat := 0x400 + 8 * c.toNat
/-- CT_META[c] (R42). -/
def offCtMeta (c : Byte) : Nat := 0x404 + 8 * c.toNat
/-- SYM_BUF+o (R66). -/
def offSymBuf (o : Nat) : Nat := 0x10000 + o
/-- BYTE_BUF+o (R66). -/
def offByteBuf (o : Nat) : Nat := 0x20000 + o

/-- `wr <offset>, <word>` (R110). -/
def wr (p : Params) (off : Nat) (v : Word) : HostOp := .write .w32 (p.blockBase + off) v

/-- `rd <offset>` (R110). -/
def rd (p : Params) (off : Nat) : HostOp := .read .w32 (p.blockBase + off)

/-- CT_CODE word of a code string (R104): right-aligned, first digit most significant. Of more than 32 digits, which R104
does not cover, the last 32 are kept. DESIGN CHOICE (log 17). -/
def codeWord (c : Bits) : Word :=
  c.foldl (fun (acc : Word) b => (acc <<< 1) ||| (BitVec.ofBool b).setWidth 32) 0#32

/-- CT_META word of a code string (R104): VALID and its length. R104 gives the word for 1 to 32 digits, and `ldct` is meant
for those alone. DESIGN CHOICE (log 17): the same expression is taken at every other length, so that 33 to 63 digits read
back VALID = 0 as R105 says, but 65 to 96 digits give LEN 1 to 32 and VALID = 1. -/
def metaWordOf (c : Bits) : Word := 0x80000000#32 ||| BitVec.ofNat 32 c.length

/-- `nop`, `pack`, `unpack`, `ctclear`, `sreset` (R111): the write of the command's word to CMD. -/
def issue (p : Params) (i : Instr) : HostOp := wr p offCmd (encode i)

/-- `ack` (R111): clears DONE, ERR and OVR. -/
def ack (p : Params) : HostOp := wr p offStatus 0x00000006#32

/-- `ldct s, "c"` (R111), for a legal code string (R105; log 17). -/
def ldct (p : Params) (c : Byte) (code : Bits) : List HostOp :=
  [wr p (offCtCode c) (codeWord code), wr p (offCtMeta c) (metaWordOf code)]

/-- The word of bytes 4k to 4k+3 of a text, little-endian, missing lanes 0 (R111). -/
def textWord (t : List Byte) (k : Nat) : Word :=
  t.getD (4 * k + 3) 0#8 ++ t.getD (4 * k + 2) 0#8 ++ t.getD (4 * k + 1) 0#8 ++ t.getD (4 * k) 0#8

/-- `ldsym "t"` (R111): the text's words into SYM_BUF, then its length into SYM_COUNT. -/
def ldsym (p : Params) (t : List Byte) : List HostOp :=
  ((List.range ((t.length + 3) / 4)).map fun k => wr p (offSymBuf (4 * k)) (textWord t k))
    ++ [wr p offSymCount (BitVec.ofNat 32 t.length)]

end Sys2Proof.Machine
end

