-- ==== Sys2Proof/Safety.lean ====
section
/-! DEFINITION. The terms claims are made in: the invariant every run keeps, the conditions the spec puts on a code table,
the greedy decomposition of a bit string in the words of 41_unpack.md R145, the ways a command ends, and a run that
respects the busy window (70_reset_and_hazards.md R220). -/

namespace Sys2Proof.Machine

/-! ### The invariant -/

/-- What holds in every reachable state. -/
structure HbpInv (s : State) : Prop where
  /-- The parameters meet R5. -/
  params_legal : s.params.Legal
  /-- BUSY = 1 exactly while a command is pending (R52). -/
  busy_iff_pending : s.status.busy = true ↔ s.pending ≠ none
  /-- DONE is clear while a command runs: acceptance clears it (R161) and only completion sets it (R162). -/
  busy_not_done : s.status.busy = true → s.status.done = false
  /-- ERR is 0 whenever DONE is 0 (R25). -/
  not_done_no_err : s.status.done = false → s.status.err = 0#4
  /-- The codes 7 to 15 are never written (R180, E2). -/
  err_defined : s.status.err.toNat ≤ 6
  /-- ERR_INFO is 0 after a success (R31). -/
  success_no_info : s.status.done = true → s.status.err = 0#4 → s.errInfo = 0#32
  /-- A valid entry holds a legal code length (R40, R42). -/
  valid_has_length : ∀ c, ctValid s c = true →
    ∃ l : BitVec 6, (ctGet s.ct c).len = some l ∧ 1 ≤ l.toNat ∧ l.toNat ≤ 32
  /-- SYM_BUF is in canonical form and holds no byte beyond its depth (R45). -/
  sym_wf : s.symBuf.wf
  sym_bound : ∀ x ∈ s.symBuf, x.1 < s.params.symDepth
  /-- BYTE_BUF is in canonical form and holds no byte beyond its depth (R46). -/
  byte_wf : s.byteBuf.wf
  byte_bound : ∀ x ∈ s.byteBuf, x.1 < s.params.byteDepth

/-! ### Code tables -/

/-- The source's "prefix-free" and "bijective": no code of a valid entry is a prefix of another's, equal codes included
(R43, R150). -/
def PrefixFree (s : State) : Prop :=
  ∀ c d, c ≠ d → ctValid s c = true → ctValid s d = true → ¬ codeBits s c <+: codeBits s d

/-- CT agrees on everything the engine may read of entry `c`: VALID, and for a valid entry LEN and the low LEN bits of
CODE (R127, R149). -/
def SameEntry (s t : State) (c : Byte) : Prop :=
  ctValid s c = ctValid t c ∧
  (ctValid s c = true → ctLen s c = ctLen t c ∧
    ∀ j < (ctLen s c).toNat, (ctCode s c).getLsbD j = (ctCode t c).getLsbD j)

/-! ### The stream and its greedy decomposition -/

/-- Stream bit `k`: bit `7 − (k mod 8)` of BYTE_BUF byte `1 + (k div 8)` (R101). -/
def streamBit (s : State) (k : Nat) : Bool := (byteRead s (1 + k / 8)).getLsbD (7 - k % 8)

/-- R of R143: the payload's bits less the header's count, none where the count is larger. -/
def residualLength (s : State) : Nat := 8 * (s.byteCount.toNat - 1) - (byteRead s 0).toNat

/-- The residual of R143: stream bits 0 to R−1. -/
def residualOf (s : State) : Bits := (List.range (residualLength s)).map (streamBit s)

/-- No non-empty prefix of `bits` is the code of a valid entry. -/
def NoMatch (s : State) (bits : Bits) : Prop := ∀ j, 1 ≤ j → j ≤ bits.length → matchCode s (bits.take j) = none

/-- `c` is matched by the first `m` bits and nothing by fewer. -/
def FirstMatch (s : State) (bits : Bits) (m : Nat) (c : Byte) : Prop :=
  1 ≤ m ∧ m ≤ bits.length ∧ matchCode s (bits.take m) = some c ∧
  ∀ j, 1 ≤ j → j < m → matchCode s (bits.take j) = none

/-- Greedy, left to right, without backtracking (R145): `bits` gives the symbols `out` and leaves `tail` unmatched. -/
inductive Greedy (s : State) : Bits → List Byte → Bits → Prop where
  | rest (tail : Bits) (h : NoMatch s tail) : Greedy s tail [] tail
  | emit (bits : Bits) (m : Nat) (c : Byte) (out : List Byte) (tail : Bits) (h : FirstMatch s bits m c)
      (more : Greedy s (bits.drop m) out tail) : Greedy s bits (c :: out) tail

/-! ### How a command ends -/

/-- STATUS after a completion with result `code` (R162): OVR keeps its value. -/
def endStatus (s : State) (code : BitVec 4) : Status :=
  { busy := false, done := true, ovr := s.status.ovr, err := code }

/-- PACK ended with error `code` and information `info`: nothing but these fields changed (R185). -/
def PackFailed (s t : State) (code : BitVec 4) (info : Word) : Prop :=
  t = { s with
        status := endStatus s code, errInfo := info, pending := none
        byteCount := 0#32, resPad := 0#8, resNbits := 0#32 }

/-- UNPACK ended with error `code` and information `info`: nothing but these fields changed (R185). -/
def UnpackFailed (s t : State) (code : BitVec 4) (info : Word) : Prop :=
  t = { s with
        status := endStatus s code, errInfo := info, pending := none
        symCount := 0#32, resPad := 0#8, resNbits := 0#32 }

/-- Nothing outside the block's own registers and memories changed: parameters, host, schedule, free-value counters. -/
def SameOutside (s t : State) : Prop :=
  t.params = s.params ∧ t.prog = s.prog ∧ t.received = s.received ∧ t.sched = s.sched ∧
  t.draws = s.draws ∧ t.era = s.era

/-- All that a command reads is the same in `s` and `t` (R93): parameters, CONFIG, counts, table and both buffers. -/
def SameInputs (s t : State) : Prop :=
  t.params = s.params ∧ t.config = s.config ∧ t.symCount = s.symCount ∧ t.byteCount = s.byteCount ∧
  t.ct = s.ct ∧ t.symBuf = s.symBuf ∧ t.byteBuf = s.byteBuf ∧ t.era = s.era

/-- The engine's step is the next event. -/
def EngineNext (s : State) : Prop := s.sched = [] ∨ s.sched.head? = some .engine

/-- The host's operation is the next event. -/
def HostNext (s : State) : Prop := (s.sched = [] ∧ s.status.busy = false) ∨ s.sched.head? = some .host

/-! ### A safe run -/

/-- Every byte and code PACK reads has been written since rst (R215 step 5). -/
def PackInputSpecified (s : State) : Prop :=
  ∀ i < s.symCount.toNat, ∃ c, s.symBuf.read? i = some c ∧
    (ctValid s c = true → ∃ w, (ctGet s.ct c).code = some w)

/-- The host's operation gets no ERROR response (R61, R62): a 32-bit access at an aligned offset. -/
def wellFormedOp (s : State) (op : HostOp) : Bool :=
  match op with
  | .wait => true
  | .read width addr => match hostOffset s.params addr with
    | none => true
    | some a => !isBadAccess width a
  | .write width addr _ => match hostOffset s.params addr with
    | none => true
    | some a => !isBadAccess width a

/-- The next event keeps the rules for hosts: no hazard of R220, no bus error (E1). `unobserved` is whether the host has
yet to observe the completion of a command. -/
def safeTurn (unobserved : Bool) (s : State) : Bool :=
  match nextTurn s, s.prog with
  | .host, op :: _ => respectsBusy unobserved s op && wellFormedOp s op
  | _, _ => true

/-- No step of the first `k` breaks a rule for hosts, the window of R220 followed from event to event. From reset
`unobserved` is false. -/
def safeRun : Nat → Bool → State → Bool
  | 0, _, _ => true
  | k + 1, unobserved, s => safeTurn unobserved s &&
    match step s with
    | .next t => safeRun k (windowAfter unobserved s t) t
    | .fault _ => false
    | .refused _ => false

end Sys2Proof.Machine
end

