-- ==== Sys2Proof/WellFormed.lean ====
section
/-! DEFINITION. Well-formedness. A command has no operand (30_encoding.md R93), so every `Instr` is well-formed; what can
be ill-formed is a command word (R92), a code string (R105) and a bus transaction (20_memory.md R61, R62). -/

namespace Sys2Proof

/-- Every command of R91 is well-formed: it has no field to check (R90, R93). -/
def Instr.wellFormed (i : Instr) : Bool :=
  match i with
  | .nop => true
  | .pack => true
  | .unpack => true
  | .ctClear => true
  | .sreset => true

/-- A legal command word: RSV = 0 and OP at most 4 (R91, R92). -/
def wellFormedWord (w : Word) : Bool := rsvField w == 0#28 && decide ((opField w).toNat ≤ 4)

/-- A code the HBP can hold: 1 to MAX_CODE_LEN digits (R105). -/
def wellFormedCode (c : Bits) : Bool := decide (1 ≤ c.length) && decide (c.length ≤ Config.maxCodeLen)

/-- An offset the block serves: aligned, inside its 2^18 bytes (R60, R62). -/
def wellFormedOffset (a : Nat) : Bool := a % 4 == 0 && decide (a < Config.blockSize)

end Sys2Proof
end

