-- ==== Sys2Proof/Certificates/Slice0/Obligations.lean ====
section
/-! DEFINITION. The statements for the provers, each with the rule of spec/ it formalises. -/

open Sys2Proof Sys2Proof.Machine

/-! ### Command words and code strings -/

/-- A few words of R91 and R92, written out from the opcode map, and how the decoder reads them. -/
def Obligations.DecodeReadsTheTableWords : Prop :=
  decode 0x00000000#32 = .ok .nop ∧ decode 0x00000001#32 = .ok .pack ∧ decode 0x00000002#32 = .ok .unpack ∧
  decode 0x00000003#32 = .ok .ctClear ∧ decode 0x00000004#32 = .ok .sreset ∧
  decode 0x00000005#32 = .error (.reservedOp 5#4) ∧ decode 0x00000011#32 = .error (.reservedBits 1#28) ∧
  decodeTableWord 32 1 = some .pack ∧ decodeTableWord 32 0x11 = none

/-- R91: a word selects an operation only if it equals the word of the table exactly, and each table word does; the
encoder gives those words, and the well-formedness check passes exactly the words the decoder reads. -/
def Obligations.DecodeSelectsExactlyTheTable : Prop :=
  (∀ (w : Word) (i : Instr), decode w = .ok i ↔
    w = (match i with
      | .nop => 0x00000000#32
      | .pack => 0x00000001#32
      | .unpack => 0x00000002#32
      | .ctClear => 0x00000003#32
      | .sreset => 0x00000004#32)) ∧
  (∀ i, decode (encode i) = .ok i) ∧
  ∀ w : Word, wellFormedWord w = true ↔ ∃ i, decode w = .ok i

/-- R92, R168: a word with RSV ≠ 0 or OP in 5 to 15 is illegal; every word is one of the five commands or illegal; an
illegal word is accepted like any command, and its engine step completes with ILLEGAL_CMD and ERR_INFO the word, changing
nothing else. -/
def Obligations.IllegalWordCompletesWithError : Prop :=
  ∀ w : Word,
    ((∃ i, w = encode i) ∨ w.toNat / 16 ≠ 0 ∨ 5 ≤ w.toNat % 16) ∧
    (w.toNat / 16 ≠ 0 ∨ 5 ≤ w.toNat % 16 →
      (∃ r, decode w = .error r) ∧
      (∀ s : State, s.status.busy = false → busWrite .w32 0x004 w s = (accept w s, .okay)) ∧
      (∀ s : State, EngineNext s → s.status.busy = true → s.pending = some w →
        step s = .next { passTurn s with
          status := { busy := false, done := true, ovr := s.status.ovr, err := 6#4 }
          errInfo := w
          pending := none }))

/-- R9 for an entry with VALID = 1: `code(c)` has LEN digits and digit j is CODE bit LEN−1−j. That the same holds of an
entry with VALID = 0, whose code R9 leaves undefined, is the model's choice (log 19, DESIGN CHOICE). -/
def Obligations.CodeDigitsMostSignificantFirst : Prop :=
  ∀ (s : State) (c : Byte), (codeBits s c).length = (ctLen s c).toNat ∧
    ∀ j < (ctLen s c).toNat, (codeBits s c)[j]? = some ((ctCode s c).getLsbD ((ctLen s c).toNat - 1 - j))

/-- R104 through the bus and the host notation `ldct` of R111: two host turns load any legal code string for any symbol,
the engine then reads exactly that string, and no other entry and no other state of the block changes. -/
def Obligations.LoadedCodeReadsBack : Prop :=
  ∀ (s : State) (c : Byte) (code : Bits) (more : List HostOp),
    wellFormedCode code = true → s.status.busy = false → s.prog = ldct s.params c code ++ more →
    let t := hostTurn (hostTurn s)
    ctValid t c = true ∧ codeBits t c = code ∧ (∀ d, d ≠ c → ctGet t.ct d = ctGet s.ct d) ∧
    t = { s with ct := t.ct, prog := more, received := .okay :: .okay :: s.received }

/-- R111 `ldsym "t"`: after its words and its count are written, SYM_BUF holds the text and SYM_COUNT its length. -/
def Obligations.LoadedTextReadsBack : Prop :=
  ∀ (s : State) (text : List Byte) (more : List HostOp),
    s.params.Legal → text.length ≤ s.params.symDepth → s.status.busy = false →
    s.prog = ldsym s.params text ++ more →
    let t := hostTurn^[(text.length + 3) / 4 + 1] s
    t.prog = more ∧ t.symCount.toNat = text.length ∧ (∀ i < text.length, symRead t i = text.getD i 0#8) ∧
    t.ct = s.ct ∧ t.byteBuf = s.byteBuf ∧ t.status = s.status ∧ t.config = s.config ∧ t.byteCount = s.byteCount

/-! ### Bits of a stream -/

/-- R101, both directions: packing puts stream bit k in bit 7−(k mod 8) of payload byte k div 8, and unpacking reads it
from there. -/
def Obligations.StreamBitsMostSignificantFirst : Prop :=
  (∀ (n k : Nat) (bs : Bits), bs.length = 8 * n → k < 8 * n →
    (packBytes n bs).length = n ∧
    ((packBytes n bs).getD (k / 8) 0#8).getLsbD (7 - k % 8) = bs.getD k false) ∧
  (∀ (s : State) (n k : Nat), k < 8 * (n - 1) →
    (payloadBits s n)[k]? = some ((byteRead s (1 + k / 8)).getLsbD (7 - k % 8)))

/-- R143: the residual is stream bits 0 to R−1 with R = max(0, T − p), every bit dropped where p exceeds T. -/
def Obligations.ResidualDropsThePadding : Prop :=
  ∀ (s : State) (n p : Nat),
    (residualBits s n p).length = max 0 (8 * (n - 1) - p) ∧
    (∀ k < 8 * (n - 1) - p, (residualBits s n p)[k]? = some (streamBit s k)) ∧
    (8 * (n - 1) ≤ p → residualBits s n p = [])

/-- R122: the two padding rules, what both give, and that they differ only when L is a multiple of 8. -/
def Obligations.PaddingLengths : Prop :=
  ∀ L : Nat,
    padLen L false = (8 - L % 8) % 8 ∧ padLen L true = 8 - L % 8 ∧
    padLen L false ≤ 7 ∧ 1 ≤ padLen L true ∧ padLen L true ≤ 8 ∧
    (L + padLen L false) % 8 = 0 ∧ (L + padLen L true) % 8 = 0 ∧
    (padLen L false ≠ padLen L true ↔ L % 8 = 0)

/-- R144: Match gives the least symbol with a valid entry of that length and code, and NONE exactly if there is none. -/
def Obligations.MatchIsTheLeastSymbol : Prop :=
  ∀ (s : State) (acc : Bits),
    (∀ c, matchCode s acc = some c ↔
      (ctValid s c = true ∧ (ctLen s c).toNat = acc.length ∧ codeBits s c = acc ∧
        ∀ d : Byte, d.toNat < c.toNat →
          ¬ (ctValid s d = true ∧ (ctLen s d).toNat = acc.length ∧ codeBits s d = acc))) ∧
    (matchCode s acc = none ↔
      ∀ d : Byte, ¬ (ctValid s d = true ∧ (ctLen s d).toNat = acc.length ∧ codeBits s d = acc))

/-! ### Steps and the order of events -/

/-- When the engine is next and the pending word decodes, a step is that command's meaning on the state with the turn
taken (R162, R164). -/
def Obligations.StepRunsTheDecodedCommand : Prop :=
  ∀ (s : State) (w : Word) (i : Instr),
    EngineNext s → s.status.busy = true → s.pending = some w → decode w = .ok i → step s = exec i (passTurn s)

/-- The other events of R72: the host's next operation, and rst (R210). Three clauses are the model's, not a rule's: that
each event uses up its turn of the schedule and that the host is next where the schedule is empty and BUSY = 0 (log 5,
DESIGN CHOICE), and that a turn given to an idle engine passes with no event (log 13, DEDUCED from R162). -/
def Obligations.StepTakesTheScheduledTurn : Prop :=
  ∀ s : State,
    (HostNext s → step s = .next (hostTurn (passTurn s))) ∧
    (s.sched.head? = some .engine → s.status.busy = false → step s = .next (passTurn s)) ∧
    (s.sched.head? = some .rst → step s = .next (hardReset (passTurn s)))

/-- R210: rst at any point leaves the reset state of the same block; what the host holds, the rest of the schedule and the
counters of free values are outside the block. -/
def Obligations.RstGivesTheResetState : Prop :=
  ∀ (s : State) (rest : List Turn), s.sched = .rst :: rest →
    step s = .next { State.resetWith s.params with
      prog := s.prog, received := s.received, sched := rest, draws := s.draws, era := s.era + 1 }

/-- R213, both columns: what the host reads and what the engine holds after rst and after SRESET. -/
def Obligations.ResetValues : Prop :=
  ∀ s t : State, (t = hardReset s ∨ exec .sreset s = .next t) →
    readTarget .id t = 0x48425001#32 ∧ readTarget .capsSym t = BitVec.ofNat 32 s.params.symDepth ∧
    readTarget .capsByte t = BitVec.ofNat 32 s.params.byteDepth ∧ readTarget .capsCode t = 0x00000820#32 ∧
    readTarget .cmd t = 0#32 ∧ readTarget .status t = 0#32 ∧ readTarget .config t = 0#32 ∧
    readTarget .symCount t = 0#32 ∧ readTarget .byteCount t = 0#32 ∧ readTarget .resPad t = 0#32 ∧
    readTarget .resNbits t = 0#32 ∧ readTarget .errInfo t = 0#32 ∧ (∀ c, ctValid t c = false) ∧
    t.pending = none ∧ irqOut t = false ∧
    (t = hardReset s → (∀ c, (ctGet t.ct c).code = none ∧ (ctGet t.ct c).len = none) ∧
      (∀ i, t.symBuf.read? i = none) ∧ ∀ j, t.byteBuf.read? j = none) ∧
    (exec .sreset s = .next t → (∀ c, (ctGet t.ct c).code = (ctGet s.ct c).code ∧
      (ctGet t.ct c).len = (ctGet s.ct c).len) ∧ t.symBuf = s.symBuf ∧ t.byteBuf = s.byteBuf)

/-- R60: a host operation at host address BLOCK_BASE + a, a below 2^18, is the block's transaction at offset a; at any
other address it does not reach the block. R111: `wait` reads STATUS until the value read has bit 0 = 0. The rest is the
model's, not a rule's: the lists of operations and answers (log 6), the answer `notReached` outside the block (log 8),
`wait` as one operation that reads STATUS once a turn (log 12), and a host with no operation left doing nothing (log 13),
each a DESIGN CHOICE. -/
def Obligations.HostOperations : Prop :=
  ∀ (s : State) (width : Width) (addr : Nat) (v : Word) (more : List HostOp),
    (s.prog = .read width addr :: more → ∀ a < 0x40000, addr = s.params.blockBase + a →
      hostTurn s = { (busRead width a s).1 with
        prog := more, received := (busRead width a s).2 :: s.received }) ∧
    (s.prog = .write width addr v :: more → ∀ a < 0x40000, addr = s.params.blockBase + a →
      hostTurn s = { (busWrite width a v s).1 with
        prog := more, received := (busWrite width a v s).2 :: s.received }) ∧
    (s.prog = .read width addr :: more ∨ s.prog = .write width addr v :: more →
      (addr < s.params.blockBase ∨ s.params.blockBase + 0x40000 ≤ addr) →
      hostTurn s = { s with prog := more, received := .notReached :: s.received }) ∧
    (s.prog = .wait :: more → hostTurn s = { s with
      prog := if s.status.busy then .wait :: more else more
      received := .data (statusWord s.status) :: s.received }) ∧
    (s.prog = [] → hostTurn s = s)

/-! ### Command lifecycle and flags -/

/-- R161: an idle block accepts every word; a busy one accepts none. -/
def Obligations.CmdWriteIsAcceptedWhenIdle : Prop :=
  ∀ (s : State) (w : Word),
    (s.status.busy = false → busWrite .w32 0x004 w s =
      ({ s with
          pending := some w
          status := { busy := true, done := false, ovr := s.status.ovr, err := 0#4 } }, .okay)) ∧
    (s.status.busy = true → (busWrite .w32 0x004 w s).1.pending = s.pending)

/-- R68, R64: while BUSY = 1 a STATUS write is performed, a reserved write ignored, and a write to any other offset ignored
but for setting OVR; so none of them changes the pending command or anything it reads. That a window word beyond the depth
is such an offset is the model's choice between R68 and D28 (log 16, DESIGN CHOICE). -/
def Obligations.BusyWindowWrites : Prop :=
  ∀ (s : State) (a : Nat) (v : Word), s.status.busy = true → a % 4 = 0 → a < 0x40000 →
    busWrite .w32 a v s =
      (if a = 0x008 then { s with status := statusW1c v s.status }
       else if targetOf a = .reserved then s
       else { s with status := { s.status with ovr := true } }, .okay)

/-- R25: STATUS reads BUSY bit 0, DONE bit 1, OVR bit 2, ERR bits 7:4 and 0 elsewhere, at all times; a write clears DONE
and ERR by bit 1 and OVR by bit 2, whether or not BUSY = 1, and changes nothing else; ERR_INFO keeps its value (R187). -/
def Obligations.StatusReadsAndAcknowledges : Prop :=
  ∀ (s : State) (w : Word),
    (∃ v : Word, busRead .w32 0x008 s = (s, .data v) ∧
      v.getLsbD 0 = s.status.busy ∧ v.getLsbD 1 = s.status.done ∧ v.getLsbD 2 = s.status.ovr ∧
      v.getLsbD 3 = false ∧ v.extractLsb' 4 4 = s.status.err ∧ v.extractLsb' 8 24 = 0#24) ∧
    ∃ st : Status, busWrite .w32 0x008 w s = ({ s with status := st }, .okay) ∧ st.busy = s.status.busy ∧
      (w.getLsbD 1 = true → st.done = false ∧ st.err = 0#4) ∧
      (w.getLsbD 1 = false → st.done = s.status.done ∧ st.err = s.status.err) ∧
      (w.getLsbD 2 = true → st.ovr = false) ∧ (w.getLsbD 2 = false → st.ovr = s.status.ovr)

/-- R36, R25: DONE rises only at the completion of a pending command other than SRESET. -/
def Obligations.DoneRisesOnlyAtCompletion : Prop :=
  ∀ s t : State, step s = .next t → s.status.done = false → t.status.done = true →
    nextTurn s = .engine ∧ s.status.busy = true ∧ t.status.busy = false ∧
    ∃ w, s.pending = some w ∧ w ≠ 0x00000004#32

/-- R36, R188: OVR rises only when a host write comes while BUSY = 1. -/
def Obligations.OvrRisesOnlyByALostWrite : Prop :=
  ∀ s t : State, step s = .next t → s.status.ovr = false → t.status.ovr = true →
    nextTurn s = .host ∧ s.status.busy = true ∧
    ∃ a v more, s.prog = .write .w32 (s.params.blockBase + a) v :: more ∧ a < 0x40000 ∧ a % 4 = 0 ∧
      a ≠ 0x008 ∧ targetOf a ≠ .reserved

/-- R160: nothing but a host write to CMD starts a command. -/
def Obligations.OnlyACmdWriteStartsACommand : Prop :=
  ∀ s t : State, step s = .next t → s.status.busy = false → t.status.busy = true →
    nextTurn s = .host ∧
    ∃ w more, s.prog = .write .w32 (s.params.blockBase + 0x004) w :: more ∧ t.pending = some w

/-- R192: irq is bit 1 of STATUS and bit 1 of CONFIG; a command other than SRESET ends with irq = IE, and SRESET with
irq low. -/
def Obligations.IrqIsDoneAndEnabled : Prop :=
  ∀ s : State,
    irqOut s = ((statusWord s.status).getLsbD 1 && (configWord s.config).getLsbD 1) ∧
    ∀ (i : Instr) (t : State), exec i s = .next t →
      (i ≠ .sreset → irqOut t = s.config.ie) ∧ (i = .sreset → irqOut t = false)

/-! ### Control commands -/

/-- R165: NOP completes and changes ERR_INFO and STATUS only. -/
def Obligations.NopOnlyCompletes : Prop :=
  ∀ s : State, exec .nop s = .next { s with
    status := { busy := false, done := true, ovr := s.status.ovr, err := 0#4 }
    errInfo := 0#32
    pending := none }

/-- R166: CT_CLEAR zeroes every entry and completes, and changes nothing else; every CT_CODE and CT_META then reads 0. -/
def Obligations.CtClearZeroesTheTable : Prop :=
  ∀ s : State, ∃ t : State, exec .ctClear s = .next t ∧
    (∀ c, ctGet t.ct c = { code := some 0#32, len := some 0#6, valid := false } ∧
      readTarget (.ctCode c) t = 0#32 ∧ readTarget (.ctMeta c) t = 0#32) ∧
    t = { s with
      ct := t.ct
      status := { busy := false, done := true, ovr := s.status.ovr, err := 0#4 }
      errInfo := 0#32
      pending := none }

/-- R167, R211: SRESET resets every register and every VALID bit, keeps CODE, LEN and both buffers, and leaves DONE 0 and
irq low. -/
def Obligations.SresetResets : Prop :=
  ∀ s : State, ∃ t : State, exec .sreset s = .next t ∧ irqOut t = false ∧
    (∀ c, ctGet t.ct c = { ctGet s.ct c with valid := false }) ∧
    t = { s with
      ct := t.ct
      status := { busy := false, done := false, ovr := false, err := 0#4 }
      config := { padmode := false, ie := false }
      symCount := 0#32, byteCount := 0#32, resPad := 0#8, resNbits := 0#32, errInfo := 0#32
      pending := none }

/-! ### PACK -/

/-- R120, R123 to R125: PACK completes where the count is in range, every input symbol has a valid entry and the stream
fits: header, stream bits in input order with zero padding, result registers, and no byte beyond the stream written. -/
def Obligations.PackWritesTheStream : Prop :=
  ∀ s : State, s.params.Legal → s.symCount.toNat ≤ s.params.symDepth →
    (∀ i < s.symCount.toNat, ctValid s (symRead s i) = true) →
    let bits := (List.range s.symCount.toNat).flatMap fun i => codeBits s (symRead s i)
    let p := if s.config.padmode then 8 - bits.length % 8 else (8 - bits.length % 8) % 8
    let n := 1 + (bits.length + p) / 8
    n ≤ s.params.byteDepth →
    ∃ t : State, exec .pack s = .next t ∧
      t.status = { busy := false, done := true, ovr := s.status.ovr, err := 0#4 } ∧ t.errInfo = 0#32 ∧
      t.byteCount.toNat = n ∧ t.resPad.toNat = p ∧ t.resNbits.toNat = bits.length ∧
      (byteRead t 0).toNat = p ∧
      (∀ k < bits.length + p, streamBit t k = (bits ++ List.replicate p false).getD k false) ∧
      (∀ j, n ≤ j → t.byteBuf.read? j = s.byteBuf.read? j)

/-- R121: a count above the buffer depth is BAD_COUNT with the whole count, whatever else holds. -/
def Obligations.PackChecksTheCountFirst : Prop :=
  ∀ s : State, s.params.symDepth < s.symCount.toNat →
    ∃ t : State, exec .pack s = .next t ∧ PackFailed s t 5#4 s.symCount

/-- R184, R181: with the count in range, the lowest index whose symbol has no valid entry is MISSING_CODE, whatever the
output size would be; ERR_INFO is the symbol in bits 23:16 and the index in bits 15:0. -/
def Obligations.PackReportsTheFirstMissingCode : Prop :=
  ∀ (s : State) (i : Nat), s.params.Legal → s.symCount.toNat ≤ s.params.symDepth → i < s.symCount.toNat →
    ctValid s (symRead s i) = false → (∀ j < i, ctValid s (symRead s j) = true) →
    ∃ t : State, exec .pack s = .next t ∧ PackFailed s t 1#4 t.errInfo ∧
      t.errInfo.extractLsb' 0 16 = BitVec.ofNat 16 i ∧ i < 65536 ∧
      t.errInfo.extractLsb' 16 8 = symRead s i ∧ t.errInfo.extractLsb' 24 8 = 0#8

/-- R184, R181: with the count in range and every code present, a stream longer than BYTE_DEPTH is OUTPUT_OVERFLOW with
the length it would need. -/
def Obligations.PackReportsOverflow : Prop :=
  ∀ s : State, s.params.Legal → s.symCount.toNat ≤ s.params.symDepth →
    (∀ i < s.symCount.toNat, ctValid s (symRead s i) = true) →
    let bits := (List.range s.symCount.toNat).flatMap fun i => codeBits s (symRead s i)
    let p := if s.config.padmode then 8 - bits.length % 8 else (8 - bits.length % 8) % 8
    s.params.byteDepth < 1 + (bits.length + p) / 8 →
    ∃ t : State, exec .pack s = .next t ∧ PackFailed s t 4#4 t.errInfo ∧
      t.errInfo.toNat = 1 + (bits.length + p) / 8

/-- The frame of PACK (R93, R125, R46): it always answers a next state, and changes nothing but BYTE_BUF, BYTE_COUNT,
RES_PAD, RES_NBITS, ERR_INFO and STATUS (OVR kept); on an error no byte of BYTE_BUF, on success none from BYTE_COUNT on. -/
def Obligations.PackFrame : Prop :=
  ∀ s : State, ∃ t : State, exec .pack s = .next t ∧
    t = { s with
      byteBuf := t.byteBuf, byteCount := t.byteCount, resPad := t.resPad, resNbits := t.resNbits
      errInfo := t.errInfo, status := endStatus s t.status.err, pending := none } ∧
    (∀ j, (t.status.err ≠ 0#4 ∨ t.byteCount.toNat ≤ j) → s.params.Legal → byteRead t j = byteRead s j)

/-- R128: the arithmetic of a successful PACK. -/
def Obligations.PackArithmetic : Prop :=
  ∀ s t : State, HbpInv s → exec .pack s = .next t → t.status.err = 0#4 →
    t.resNbits.toNat = ((List.range s.symCount.toNat).map fun i => (ctLen s (symRead s i)).toNat).sum ∧
    t.resNbits.toNat ≤ 32 * s.params.symDepth ∧
    (s.config.padmode = false → t.resPad.toNat ≤ 7) ∧
    (s.config.padmode = true → 1 ≤ t.resPad.toNat ∧ t.resPad.toNat ≤ 8) ∧
    byteRead t 0 = t.resPad ∧ (t.resNbits.toNat + t.resPad.toNat) % 8 = 0 ∧
    t.byteCount.toNat = 1 + (t.resNbits.toNat + t.resPad.toNat) / 8 ∧
    (s.config.padmode = false → t.byteCount.toNat = 1 + (t.resNbits.toNat + 7) / 8) ∧
    (s.config.padmode = true → t.byteCount.toNat = 2 + t.resNbits.toNat / 8) ∧
    (∀ k, t.resNbits.toNat ≤ k → k < t.resNbits.toNat + t.resPad.toNat → streamBit t k = false)

/-- R127: the outcome of PACK is a function of PADMODE, the count, the input symbols and what the engine may read of
their entries (and of the two depths), and of nothing else. -/
def Obligations.PackReadsOnlyItsOperands : Prop :=
  ∀ s₁ s₂ t₁ t₂ : State,
    s₁.params.symDepth = s₂.params.symDepth → s₁.params.byteDepth = s₂.params.byteDepth →
    s₁.config.padmode = s₂.config.padmode → s₁.symCount = s₂.symCount →
    (∀ i < s₁.symCount.toNat, symRead s₁ i = symRead s₂ i ∧ SameEntry s₁ s₂ (symRead s₁ i)) →
    exec .pack s₁ = .next t₁ → exec .pack s₂ = .next t₂ →
    t₁.status.err = t₂.status.err ∧ t₁.errInfo = t₂.errInfo ∧ t₁.byteCount = t₂.byteCount ∧
    t₁.resPad = t₂.resPad ∧ t₁.resNbits = t₂.resNbits ∧
    (t₁.status.err = 0#4 → ∀ j < t₁.byteCount.toNat, byteRead t₁ j = byteRead t₂ j)

/-! ### UNPACK -/

/-- R141: the two count checks, the depth first. -/
def Obligations.UnpackChecksTheCount : Prop :=
  ∀ s : State,
    (s.params.byteDepth < s.byteCount.toNat →
      ∃ t : State, exec .unpack s = .next t ∧ UnpackFailed s t 5#4 s.byteCount) ∧
    (s.byteCount = 0#32 → ∃ t : State, exec .unpack s = .next t ∧ UnpackFailed s t 2#4 0#32)

/-- Every bit string has exactly one greedy decomposition (R145), so the outcomes of UNPACK below cover every residual. -/
def Obligations.GreedyDecompositionIsUnique : Prop :=
  ∀ (s : State) (bits : Bits),
    (∃ out tail, Greedy s bits out tail) ∧
    ∀ out₁ tail₁ out₂ tail₂, Greedy s bits out₁ tail₁ → Greedy s bits out₂ tail₂ → out₁ = out₂ ∧ tail₁ = tail₂

/-- R140, R145 to R147: with the count in range and the residual's greedy decomposition, UNPACK completes: with the
symbols where nothing is left over and they fit; with OUTPUT_OVERFLOW and their number where they do not fit; with
INVALID_CODE and the index where the tail starts where a tail is left, whatever the number of symbols. -/
def Obligations.UnpackFollowsTheGreedyScan : Prop :=
  ∀ (s : State) (out : List Byte) (tail : Bits), s.params.Legal →
    1 ≤ s.byteCount.toNat → s.byteCount.toNat ≤ s.params.byteDepth → Greedy s (residualOf s) out tail →
    ∃ t : State, exec .unpack s = .next t ∧
      (if tail ≠ [] then
        UnpackFailed s t 3#4 t.errInfo ∧ t.errInfo.toNat + tail.length = residualLength s
      else if s.params.symDepth < out.length then
        UnpackFailed s t 4#4 t.errInfo ∧ t.errInfo.toNat = out.length
      else
        t.status = { busy := false, done := true, ovr := s.status.ovr, err := 0#4 } ∧ t.errInfo = 0#32 ∧
        t.symCount.toNat = out.length ∧ t.resPad = byteRead s 0 ∧ t.resNbits.toNat = residualLength s ∧
        (∀ i < out.length, t.symBuf.read? i = out[i]?) ∧
        (∀ i, out.length ≤ i → t.symBuf.read? i = s.symBuf.read? i))

/-- R142, R143: the header is not validated: one at least as large as the payload drops every bit and gives no symbol. -/
def Obligations.UnpackOfHeaderDroppingEveryBit : Prop :=
  ∀ s : State, 1 ≤ s.byteCount.toNat → s.byteCount.toNat ≤ s.params.byteDepth →
    8 * (s.byteCount.toNat - 1) ≤ (byteRead s 0).toNat →
    exec .unpack s = .next { s with
      status := { busy := false, done := true, ovr := s.status.ovr, err := 0#4 }
      errInfo := 0#32, symCount := 0#32, resPad := byteRead s 0, resNbits := 0#32, pending := none }

/-- The frame of UNPACK (R93, R146, R45): it always answers a next state, and changes nothing but SYM_BUF, SYM_COUNT,
RES_PAD, RES_NBITS, ERR_INFO and STATUS (OVR kept); on an error no byte of SYM_BUF, on success none from SYM_COUNT on. -/
def Obligations.UnpackFrame : Prop :=
  ∀ s : State, ∃ t : State, exec .unpack s = .next t ∧
    t = { s with
      symBuf := t.symBuf, symCount := t.symCount, resPad := t.resPad, resNbits := t.resNbits
      errInfo := t.errInfo, status := endStatus s t.status.err, pending := none } ∧
    (∀ i, (t.status.err ≠ 0#4 ∨ t.symCount.toNat ≤ i) → s.params.Legal → symRead t i = symRead s i)

/-- R148: once the accumulator is longer than MAX_CODE_LEN the scan ends in INVALID_CODE with the same start, whatever
bits follow. -/
def Obligations.LongAccumulatorNeverMatches : Prop :=
  ∀ (s : State) (k start : Nat) (acc rest : Bits), HbpInv s → 32 < acc.length → scan s k start acc rest = .error start

/-- R149: the outcome of UNPACK is a function of the count, the stream and what the engine may read of the table (and of
the two depths), and of nothing else; not of PADMODE. -/
def Obligations.UnpackReadsOnlyItsOperands : Prop :=
  ∀ s₁ s₂ t₁ t₂ : State,
    s₁.params.symDepth = s₂.params.symDepth → s₁.params.byteDepth = s₂.params.byteDepth →
    s₁.byteCount = s₂.byteCount →
    (∀ j < s₁.byteCount.toNat, byteRead s₁ j = byteRead s₂ j) → (∀ c, SameEntry s₁ s₂ c) →
    exec .unpack s₁ = .next t₁ → exec .unpack s₂ = .next t₂ →
    t₁.status.err = t₂.status.err ∧ t₁.errInfo = t₂.errInfo ∧ t₁.symCount = t₂.symCount ∧
    t₁.resPad = t₂.resPad ∧ t₁.resNbits = t₂.resNbits ∧
    (t₁.status.err = 0#4 → ∀ i < t₁.symCount.toNat, symRead t₁ i = symRead t₂ i)

/-- R150, the round trip: over a prefix-free table, what a successful PACK wrote, UNPACK turns back into the symbols that
were packed, as long as the table, the stream and BYTE_COUNT are left alone. -/
def Obligations.UnpackInvertsPack : Prop :=
  ∀ s t u : State, HbpInv s → PrefixFree s → exec .pack s = .next t → t.status.err = 0#4 →
    u.params = t.params → u.ct = t.ct → u.era = t.era → u.byteCount = t.byteCount →
    (∀ j < t.byteCount.toNat, u.byteBuf.read? j = t.byteBuf.read? j) →
    ∃ v : State, exec .unpack u = .next v ∧ v.status.err = 0#4 ∧ v.status.done = true ∧
      v.symCount = s.symCount ∧ (∀ i < s.symCount.toNat, symRead v i = symRead s i) ∧
      v.resPad = t.resPad ∧ v.resNbits = t.resNbits

/-- R151: over a prefix-free table, a residual that ends in a proper prefix of a code is INVALID_CODE at the index where
that tail starts; one that still decomposes into codes is decoded without error. -/
def Obligations.TruncatedCodeIsDetected : Prop :=
  ∀ (s : State) (syms : List Byte) (tail : Bits), HbpInv s → PrefixFree s →
    1 ≤ s.byteCount.toNat → s.byteCount.toNat ≤ s.params.byteDepth →
    (∀ c ∈ syms, ctValid s c = true) → residualOf s = syms.flatMap (codeBits s) ++ tail →
    (tail ≠ [] → (∃ c, ctValid s c = true ∧ tail <+: codeBits s c ∧ tail ≠ codeBits s c) →
      ∃ t : State, exec .unpack s = .next t ∧ UnpackFailed s t 3#4 t.errInfo ∧
        t.errInfo.toNat = (syms.flatMap (codeBits s)).length) ∧
    (tail = [] → syms.length ≤ s.params.symDepth →
      ∃ t : State, exec .unpack s = .next t ∧ t.status.err = 0#4 ∧ t.symCount.toNat = syms.length ∧
        ∀ i < syms.length, t.symBuf.read? i = syms[i]?)

/-- R216: with no valid entry (after either reset, or CT_CLEAR) PACK of a count in range but not 0 fails with
MISSING_CODE at index 0; UNPACK gives no symbols where the residual is empty and INVALID_CODE at index 0 where it is
not. The symbol in ERR_INFO and the header are read as the buffers hold them, a free value where nothing was written. -/
def Obligations.EmptyTableOutcomes : Prop :=
  ∀ s : State, s.params.Legal → (∀ c, ctValid s c = false) →
    (0 < s.symCount.toNat → s.symCount.toNat ≤ s.params.symDepth →
      ∃ t : State, exec .pack s = .next t ∧ PackFailed s t 1#4 t.errInfo ∧
        t.errInfo.toNat = (symRead s 0).toNat * 65536) ∧
    (1 ≤ s.byteCount.toNat → s.byteCount.toNat ≤ s.params.byteDepth →
      ∃ t : State, exec .unpack s = .next t ∧
        (if residualLength s = 0 then t.status.err = 0#4 ∧ t.symCount = 0#32 ∧ t.symBuf = s.symBuf
         else UnpackFailed s t 3#4 0#32))

/-! ### Errors -/

/-- R185: the report of a failed PACK, UNPACK or illegal word changes the output count, the result registers (none of
them for an illegal word), ERR_INFO and STATUS, and nothing else. -/
def Obligations.ErrorReportsAreAllOrNothing : Prop :=
  ∀ s t : State,
    (exec .pack s = .next t → t.status.err ≠ 0#4 → PackFailed s t t.status.err t.errInfo) ∧
    (exec .unpack s = .next t → t.status.err ≠ 0#4 → UnpackFailed s t t.status.err t.errInfo) ∧
    (∀ w, execIllegal w s = .next t →
      t = { s with status := endStatus s 6#4, errInfo := w, pending := none })

/-- R183, R180: which error codes each command can end with; NOP, CT_CLEAR and SRESET never fail; no command stops. -/
def Obligations.ErrorsOfEachCommand : Prop :=
  ∀ (i : Instr) (s : State), ∃ t : State, exec i s = .next t ∧
    match i with
    | .nop => t.status.err = 0#4
    | .pack => t.status.err = 0#4 ∨ t.status.err = 5#4 ∨ t.status.err = 1#4 ∨ t.status.err = 4#4
    | .unpack => t.status.err = 0#4 ∨ t.status.err = 5#4 ∨ t.status.err = 2#4 ∨ t.status.err = 3#4 ∨
        t.status.err = 4#4
    | .ctClear => t.status.err = 0#4
    | .sreset => t.status.err = 0#4

/-- R45, R46: no command but a successful UNPACK writes SYM_BUF and none but a successful PACK writes BYTE_BUF. -/
def Obligations.OnlyTheirCommandWritesABuffer : Prop :=
  ∀ (i : Instr) (s t : State), exec i s = .next t →
    (t.symBuf ≠ s.symBuf → i = .unpack ∧ t.status.err = 0#4) ∧
    (t.byteBuf ≠ s.byteBuf → i = .pack ∧ t.status.err = 0#4)

/-! ### The bus -/

/-- R35: a reserved offset reads 0 and ignores writes, with OKAY, whatever BUSY is. -/
def Obligations.ReservedOffsetsAreInert : Prop :=
  ∀ (s : State) (a : Nat) (v : Word), a % 4 = 0 →
    (0x030 ≤ a ∧ a ≤ 0x3FC ∨ 0xC00 ≤ a ∧ a ≤ 0xFFFC ∨ 0x30000 ≤ a ∧ a ≤ 0x3FFFC) →
    busRead .w32 a s = (s, .data 0#32) ∧ busWrite .w32 a v s = (s, .okay)

/-- R61, R62, R189: a transaction of another width or at a misaligned offset gets ERROR, no data, and changes nothing. -/
def Obligations.BadAccessGetsError : Prop :=
  ∀ (s : State) (width : Width) (a : Nat) (v : Word), width ≠ .w32 ∨ a % 4 ≠ 0 →
    busRead width a s = (s, .error) ∧ busWrite width a v s = (s, .error)

/-- R63, R70: every aligned 32-bit transaction inside the block gets OKAY; a read has no side effect, but that an
undefined read of the busy window uses up one free word. -/
def Obligations.ReadsHaveNoSideEffects : Prop :=
  ∀ (s : State) (a : Nat) (v : Word), a % 4 = 0 → a < 0x40000 →
    (busWrite .w32 a v s).2 = .okay ∧
    ∃ d : Word, (busRead .w32 a s).2 = .data d ∧
      ((busRead .w32 a s).1 = s ∨
        s.status.busy = true ∧ (busRead .w32 a s).1 = { s with draws := s.draws + 1 } ∧ d = Config.freeBusyWord s.draws)

/-- R67: the offsets whose reads are defined while BUSY = 1, and that every other offset gives a fresh free word (log 4). That
a window word beyond the depth is such an offset is the model's choice between R67 and D28 (log 16, DESIGN CHOICE). -/
def Obligations.BusyReadsAreFresh : Prop :=
  ∀ (s : State) (a : Nat), s.status.busy = true → a % 4 = 0 → a < 0x40000 →
    busRead .w32 a s =
      if a ∈ [0x000, 0x004, 0x008, 0x00C, 0x024, 0x028, 0x02C] ∨ targetOf a = .reserved then
        (s, .data (readTarget (targetOf a) s))
      else ({ s with draws := s.draws + 1 }, .data (Config.freeBusyWord s.draws))

/-- R66: lanes of a window word little-endian, read after write, no other byte changed; beyond the depth reads 0 and
writes are ignored; for both windows. -/
def Obligations.BufferWindowLanes : Prop :=
  ∀ (s : State) (k : Nat) (v : Word), s.params.Legal → s.status.busy = false → k < 16384 →
    (let t := (busWrite .w32 (0x10000 + 4 * k) v s).1
     (4 * k < s.params.symDepth →
      (∀ n < 4, symRead t (4 * k + n) = v.extractLsb' (8 * n) 8) ∧
      (∀ i, (i < 4 * k ∨ 4 * k + 4 ≤ i) → t.symBuf.read? i = s.symBuf.read? i) ∧
      t = { s with symBuf := t.symBuf } ∧ busRead .w32 (0x10000 + 4 * k) t = (t, .data v) ∧
      ∃ d : Word, busRead .w32 (0x10000 + 4 * k) s = (s, .data d) ∧
        ∀ n < 4, d.extractLsb' (8 * n) 8 = symRead s (4 * k + n)) ∧
     (s.params.symDepth ≤ 4 * k → t = s ∧ busRead .w32 (0x10000 + 4 * k) s = (s, .data 0#32))) ∧
    (let t := (busWrite .w32 (0x20000 + 4 * k) v s).1
     (4 * k < s.params.byteDepth →
      (∀ n < 4, byteRead t (4 * k + n) = v.extractLsb' (8 * n) 8) ∧
      (∀ i, (i < 4 * k ∨ 4 * k + 4 ≤ i) → t.byteBuf.read? i = s.byteBuf.read? i) ∧
      t = { s with byteBuf := t.byteBuf } ∧ busRead .w32 (0x20000 + 4 * k) t = (t, .data v) ∧
      ∃ d : Word, busRead .w32 (0x20000 + 4 * k) s = (s, .data d) ∧
        ∀ n < 4, d.extractLsb' (8 * n) 8 = byteRead s (4 * k + n)) ∧
     (s.params.byteDepth ≤ 4 * k → t = s ∧ busRead .w32 (0x20000 + 4 * k) s = (s, .data 0#32)))

/-- R41, R42: writing the two words of entry c while idle, and reading them back: CT_CODE as written, CT_META with VALID
only for a legal length; no other entry and no other state changes. -/
def Obligations.CodeTableWrites : Prop :=
  ∀ (s : State) (c : Byte) (w : Word), s.status.busy = false →
    (let t := (busWrite .w32 (0x400 + 8 * c.toNat) w s).1
     busRead .w32 (0x400 + 8 * c.toNat) t = (t, .data w) ∧ ctGet t.ct c = { ctGet s.ct c with code := some w } ∧
     (∀ d, d ≠ c → ctGet t.ct d = ctGet s.ct d) ∧ t = { s with ct := t.ct }) ∧
    (let t := (busWrite .w32 (0x404 + 8 * c.toNat) w s).1
     ctLen t c = w.extractLsb' 0 6 ∧
     (ctValid t c = true ↔ w.getLsbD 31 = true ∧ 1 ≤ (w.extractLsb' 0 6).toNat ∧ (w.extractLsb' 0 6).toNat ≤ 32) ∧
     (∃ d : Word, busRead .w32 (0x404 + 8 * c.toNat) t = (t, .data d) ∧ d.getLsbD 31 = ctValid t c ∧
       d.extractLsb' 6 25 = 0#25 ∧ d.extractLsb' 0 6 = w.extractLsb' 0 6) ∧
     (ctGet t.ct c).code = (ctGet s.ct c).code ∧
     (∀ d, d ≠ c → ctGet t.ct d = ctGet s.ct d) ∧ t = { s with ct := t.ct })

/-- R26 to R28: CONFIG keeps its two bits, the counts all 32, of a write while idle, and reads give them back; nothing
else changes. -/
def Obligations.ConfigAndCountWrites : Prop :=
  ∀ (s : State) (w : Word), s.status.busy = false →
    (let t := (busWrite .w32 0x00C w s).1
     t = { s with config := { padmode := w.getLsbD 0, ie := w.getLsbD 1 } } ∧
     busRead .w32 0x00C t = (t, .data (w &&& 3#32))) ∧
    (let t := (busWrite .w32 0x010 w s).1
     t = { s with symCount := w } ∧ busRead .w32 0x010 t = (t, .data w)) ∧
    (let t := (busWrite .w32 0x014 w s).1
     t = { s with byteCount := w } ∧ busRead .w32 0x014 t = (t, .data w))

/-- R23, R24, R29 to R34: ID, CAPS and CMD read the same constants at all times; the result registers read what they hold
while idle, RES_PAD zero-extended; a write to a read-only register is ignored while idle. -/
def Obligations.ReadOnlyRegisters : Prop :=
  ∀ (s : State) (w : Word),
    busRead .w32 0x000 s = (s, .data 0x48425001#32) ∧ busRead .w32 0x004 s = (s, .data 0#32) ∧
    busRead .w32 0x024 s = (s, .data (BitVec.ofNat 32 s.params.symDepth)) ∧
    busRead .w32 0x028 s = (s, .data (BitVec.ofNat 32 s.params.byteDepth)) ∧
    busRead .w32 0x02C s = (s, .data 0x00000820#32) ∧
    (s.status.busy = false →
      (∃ d : Word, busRead .w32 0x018 s = (s, .data d) ∧ d.extractLsb' 0 8 = s.resPad ∧ d.extractLsb' 8 24 = 0#24) ∧
      busRead .w32 0x01C s = (s, .data s.resNbits) ∧ busRead .w32 0x020 s = (s, .data s.errInfo) ∧
      ∀ a ∈ [0x000, 0x018, 0x01C, 0x020, 0x024, 0x028, 0x02C], busWrite .w32 a w s = (s, .okay))

/-! ### Whole-machine rules -/

/-- R162, R68: what the host does in the busy window changes nothing the pending command reads: BUSY, PENDING and every
input keep their values through a host turn. -/
def Obligations.HostCannotChangeARunningCommand : Prop :=
  ∀ s : State, s.status.busy = true →
    let t := hostTurn s
    t.status.busy = true ∧ t.pending = s.pending ∧ SameInputs s t ∧
    t.resPad = s.resPad ∧ t.resNbits = s.resNbits ∧ t.errInfo = s.errInfo ∧ t.sched = s.sched

/-- R162, U6: wherever the engine step falls, after any number of host turns, the command completes with the same error
code, registers, table and buffers. -/
def Obligations.EngineStepIsOrderIndependent : Prop :=
  ∀ (s : State) (w : Word) (n : Nat), s.status.busy = true → s.pending = some w →
    ∃ a b : State, engineStep s = .next a ∧ engineStep (hostTurn^[n] s) = .next b ∧
      SameInputs a b ∧ b.resPad = a.resPad ∧ b.resNbits = a.resNbits ∧ b.errInfo = a.errInfo ∧
      b.pending = none ∧ a.pending = none ∧ b.status.busy = false ∧ a.status.busy = false ∧
      b.status.done = a.status.done ∧ b.status.err = a.status.err

/-- The invariant (R52: BUSY = 1 exactly while a command is pending; R25, R42, R45, R46, R180) is kept by every step, and
no step changes a parameter (R5). -/
def Obligations.EveryStepKeepsTheInvariant : Prop :=
  ∀ s t : State, HbpInv s → step s = .next t → HbpInv t ∧ t.params = s.params

/-- The invariant holds right after rst, for every legal choice of the parameters (R213). -/
def Obligations.ResetMeetsTheInvariant : Prop :=
  (∀ p : Params, p.Legal → HbpInv (State.resetWith p)) ∧ HbpInv State.reset

/-- No event stops the machine: from every state that meets the invariant a step answers a next state. -/
def Obligations.TheMachineNeverStops : Prop :=
  ∀ s : State, HbpInv s → ∃ t : State, step s = .next t

/-- R226, R212: whatever the schedule, a running command completes or is abandoned by rst after finitely many events, at
most one more than the schedule lists. That the engine goes first once the schedule is used up is the model's reading of
the fairness R226 asks for (log 5). -/
def Obligations.EveryRunningCommandEnds : Prop :=
  ∀ s : State, HbpInv s → s.status.busy = true →
    ∃ (k : Nat) (t : State), k ≤ s.sched.length + 1 ∧ Host.Core.run core k s = .next t ∧ t.status.busy = false

/-- R220, R221, R188: the busy window of a host opens when its CMD write is accepted, is not closed by completion alone,
and closes only by a STATUS read with BUSY = 0, irq high, or rst; and a run that keeps the window loses no write (OVR does
not rise) and draws no unspecified word of R67. That rst closes the window and that every read counts as a use of its
value are the model's (log 18), as is what the busy window makes of a window word beyond the depth (log 16). -/
def Obligations.HostsKeepingTheWindowLoseNoWrite : Prop :=
  (∀ (s : State) (u : Bool) (w : Word) (more : List HostOp), HostNext s → s.status.busy = false →
    s.prog = .write .w32 (s.params.blockBase + 0x004) w :: more →
    ∃ t : State, step s = .next t ∧ t.pending = some w ∧ windowAfter u s t = true) ∧
  (∀ (s t : State) (u : Bool), step s = .next t → inWindow u s = true →
    (windowAfter u s t = false ↔
      nextTurn s = .rst ∨ irqOut t = true ∨
      (nextTurn s = .host ∧ s.status.busy = false ∧
        ∃ more, s.prog = .wait :: more ∨ s.prog = .read .w32 (s.params.blockBase + 0x008) :: more))) ∧
  (∀ (k : Nat) (u : Bool) (s t : State), safeRun k u s = true → Host.Core.run core k s = .next t →
    (s.status.ovr = false → t.status.ovr = false) ∧ t.draws = s.draws)
end

