-- ==== Sys2Proof/Laws/Bits.lean ====
section
/-! SUPPORT. The small laws of bits, bytes and code strings: lengths, and which bit stands where. -/

namespace Sys2Proof.Machine

@[simp] theorem byteBits_length (b : Byte) : (byteBits b).length = 8 := by simp [byteBits]

theorem byteBits_getElem? (b : Byte) (j : Nat) (h : j < 8) : (byteBits b)[j]? = some (b.getLsbD (7 - j)) := by
  simp [byteBits, h]

@[simp] theorem codeDigits_length (n : Nat) (w : Word) : (codeDigits n w).length = n := by simp [codeDigits]

@[simp] theorem codeBits_length (s : State) (c : Byte) : (codeBits s c).length = (ctLen s c).toNat := by
  simp [codeBits]

@[simp] theorem packBytes_length (n : Nat) (bs : Bits) : (packBytes n bs).length = n := by
  induction n generalizing bs with
  | zero => rfl
  | succ n ih => simp [packBytes, ih]

@[simp] theorem packBytes_zero (bs : Bits) : packBytes 0 bs = [] := rfl

@[simp] theorem packBytes_succ (n : Nat) (bs : Bits) :
    packBytes (n + 1) bs = byteOfBits bs :: packBytes n (bs.drop 8) := rfl

/-- The bits of the byte made from eight bits are those bits, and the rest of the string does not matter. -/
theorem byteBits_byteOfBits (bs : Bits) (h : 8 ≤ bs.length) : byteBits (byteOfBits bs) = bs.take 8 := by
  have hlen : (bs.take 8).length = 8 := by simp [h]
  unfold byteOfBits
  generalize bs.take 8 = l at hlen
  match l, hlen with
  | [b0, b1, b2, b3, b4, b5, b6, b7], _ =>
    have key : ∀ b0 b1 b2 b3 b4 b5 b6 b7 : Bool,
        byteBits (([b0, b1, b2, b3, b4, b5, b6, b7].take 8).foldl
          (fun (acc : Byte) b => (acc <<< 1) ||| (BitVec.ofBool b).setWidth 8) 0#8)
          = [b0, b1, b2, b3, b4, b5, b6, b7] := by decide
    exact key b0 b1 b2 b3 b4 b5 b6 b7

/-- Packing into whole bytes and expanding them again gives the same bits. -/
theorem flatMap_byteBits_packBytes (n : Nat) (bs : Bits) (h : bs.length = 8 * n) :
    (packBytes n bs).flatMap byteBits = bs := by
  induction n generalizing bs with
  | zero => simpa using (List.eq_nil_of_length_eq_zero (by simpa using h)).symm
  | succ n ih =>
    rw [packBytes_succ, List.flatMap_cons, byteBits_byteOfBits bs (by omega), ih (bs.drop 8) (by simp; omega),
      List.take_append_drop]

/-- In a string of whole bytes, bit `k` is bit `k mod 8` of byte `k div 8`. -/
theorem flatMap_byteBits_getElem? (l : List Byte) (k : Nat) :
    (l.flatMap byteBits)[k]? = (l[k / 8]?).map fun b => b.getLsbD (7 - k % 8) := by
  induction l generalizing k with
  | nil => simp
  | cons b l ih =>
    rw [List.flatMap_cons]
    by_cases hk : k < 8
    · rw [List.getElem?_append_left (by simpa using hk), byteBits_getElem? b k hk]
      have h0 : k / 8 = 0 := by omega
      have h1 : k % 8 = k := by omega
      simp [h0, h1]
    · rw [List.getElem?_append_right (by simp; omega), byteBits_length, ih]
      have h0 : k / 8 = (k - 8) / 8 + 1 := by omega
      have h1 : k % 8 = (k - 8) % 8 := by omega
      simp [h0, h1]

theorem flatMap_byteBits_length (l : List Byte) : (l.flatMap byteBits).length = 8 * l.length := by
  induction l with
  | nil => rfl
  | cons b l ih => rw [List.flatMap_cons, List.length_append, ih]; simp; omega

theorem payloadBits_eq (s : State) (n : Nat) :
    payloadBits s n = ((List.range (n - 1)).map fun j => byteRead s (1 + j)).flatMap byteBits := by
  simp [payloadBits, List.flatMap_map]

@[simp] theorem payloadBits_length (s : State) (n : Nat) : (payloadBits s n).length = 8 * (n - 1) := by
  rw [payloadBits_eq, flatMap_byteBits_length]; simp

/-- Two codes of the same digits come from words that agree on their low bits. -/
theorem codeDigits_congr (n : Nat) (v w : Word) (h : ∀ j < n, v.getLsbD j = w.getLsbD j) :
    codeDigits n v = codeDigits n w := by
  unfold codeDigits
  refine List.map_congr_left fun j hj => ?_
  have := List.mem_range.mp hj
  exact h _ (by omega)

end Sys2Proof.Machine
end

