-- ==== Sys2Proof/Laws/State.lean ====
section
/-! SUPPORT. One lemma per field per named update of the state, true by unfolding once, so that no later proof unfolds a
record update. -/

namespace Sys2Proof.Machine

/-! ### Acceptance (R161) -/

@[simp] theorem accept_params (w : Word) (s : State) : (accept w s).params = s.params := rfl
@[simp] theorem accept_status (w : Word) (s : State) : (accept w s).status = statusAccept s.status := rfl
@[simp] theorem accept_config (w : Word) (s : State) : (accept w s).config = s.config := rfl
@[simp] theorem accept_symCount (w : Word) (s : State) : (accept w s).symCount = s.symCount := rfl
@[simp] theorem accept_byteCount (w : Word) (s : State) : (accept w s).byteCount = s.byteCount := rfl
@[simp] theorem accept_resPad (w : Word) (s : State) : (accept w s).resPad = s.resPad := rfl
@[simp] theorem accept_resNbits (w : Word) (s : State) : (accept w s).resNbits = s.resNbits := rfl
@[simp] theorem accept_errInfo (w : Word) (s : State) : (accept w s).errInfo = s.errInfo := rfl
@[simp] theorem accept_ct (w : Word) (s : State) : (accept w s).ct = s.ct := rfl
@[simp] theorem accept_symBuf (w : Word) (s : State) : (accept w s).symBuf = s.symBuf := rfl
@[simp] theorem accept_byteBuf (w : Word) (s : State) : (accept w s).byteBuf = s.byteBuf := rfl
@[simp] theorem accept_pending (w : Word) (s : State) : (accept w s).pending = some w := rfl
@[simp] theorem accept_prog (w : Word) (s : State) : (accept w s).prog = s.prog := rfl
@[simp] theorem accept_received (w : Word) (s : State) : (accept w s).received = s.received := rfl
@[simp] theorem accept_sched (w : Word) (s : State) : (accept w s).sched = s.sched := rfl
@[simp] theorem accept_draws (w : Word) (s : State) : (accept w s).draws = s.draws := rfl
@[simp] theorem accept_era (w : Word) (s : State) : (accept w s).era = s.era := rfl

/-! ### Completion (R162) -/

@[simp] theorem complete_params (c : BitVec 4) (v : Word) (s : State) : (complete c v s).params = s.params := rfl
@[simp] theorem complete_status (c : BitVec 4) (v : Word) (s : State) : (complete c v s).status = statusComplete c s.status := rfl
@[simp] theorem complete_config (c : BitVec 4) (v : Word) (s : State) : (complete c v s).config = s.config := rfl
@[simp] theorem complete_symCount (c : BitVec 4) (v : Word) (s : State) : (complete c v s).symCount = s.symCount := rfl
@[simp] theorem complete_byteCount (c : BitVec 4) (v : Word) (s : State) : (complete c v s).byteCount = s.byteCount := rfl
@[simp] theorem complete_resPad (c : BitVec 4) (v : Word) (s : State) : (complete c v s).resPad = s.resPad := rfl
@[simp] theorem complete_resNbits (c : BitVec 4) (v : Word) (s : State) : (complete c v s).resNbits = s.resNbits := rfl
@[simp] theorem complete_errInfo (c : BitVec 4) (v : Word) (s : State) : (complete c v s).errInfo = v := rfl
@[simp] theorem complete_ct (c : BitVec 4) (v : Word) (s : State) : (complete c v s).ct = s.ct := rfl
@[simp] theorem complete_symBuf (c : BitVec 4) (v : Word) (s : State) : (complete c v s).symBuf = s.symBuf := rfl
@[simp] theorem complete_byteBuf (c : BitVec 4) (v : Word) (s : State) : (complete c v s).byteBuf = s.byteBuf := rfl
@[simp] theorem complete_pending (c : BitVec 4) (v : Word) (s : State) : (complete c v s).pending = none := rfl
@[simp] theorem complete_prog (c : BitVec 4) (v : Word) (s : State) : (complete c v s).prog = s.prog := rfl
@[simp] theorem complete_received (c : BitVec 4) (v : Word) (s : State) : (complete c v s).received = s.received := rfl
@[simp] theorem complete_sched (c : BitVec 4) (v : Word) (s : State) : (complete c v s).sched = s.sched := rfl
@[simp] theorem complete_draws (c : BitVec 4) (v : Word) (s : State) : (complete c v s).draws = s.draws := rfl
@[simp] theorem complete_era (c : BitVec 4) (v : Word) (s : State) : (complete c v s).era = s.era := rfl

/-! ### A write to STATUS (R25) -/

@[simp] theorem writeStatus_params (w : Word) (s : State) : (writeStatus w s).params = s.params := rfl
@[simp] theorem writeStatus_status (w : Word) (s : State) : (writeStatus w s).status = statusW1c w s.status := rfl
@[simp] theorem writeStatus_config (w : Word) (s : State) : (writeStatus w s).config = s.config := rfl
@[simp] theorem writeStatus_symCount (w : Word) (s : State) : (writeStatus w s).symCount = s.symCount := rfl
@[simp] theorem writeStatus_byteCount (w : Word) (s : State) : (writeStatus w s).byteCount = s.byteCount := rfl
@[simp] theorem writeStatus_resPad (w : Word) (s : State) : (writeStatus w s).resPad = s.resPad := rfl
@[simp] theorem writeStatus_resNbits (w : Word) (s : State) : (writeStatus w s).resNbits = s.resNbits := rfl
@[simp] theorem writeStatus_errInfo (w : Word) (s : State) : (writeStatus w s).errInfo = s.errInfo := rfl
@[simp] theorem writeStatus_ct (w : Word) (s : State) : (writeStatus w s).ct = s.ct := rfl
@[simp] theorem writeStatus_symBuf (w : Word) (s : State) : (writeStatus w s).symBuf = s.symBuf := rfl
@[simp] theorem writeStatus_byteBuf (w : Word) (s : State) : (writeStatus w s).byteBuf = s.byteBuf := rfl
@[simp] theorem writeStatus_pending (w : Word) (s : State) : (writeStatus w s).pending = s.pending := rfl
@[simp] theorem writeStatus_prog (w : Word) (s : State) : (writeStatus w s).prog = s.prog := rfl
@[simp] theorem writeStatus_received (w : Word) (s : State) : (writeStatus w s).received = s.received := rfl
@[simp] theorem writeStatus_sched (w : Word) (s : State) : (writeStatus w s).sched = s.sched := rfl
@[simp] theorem writeStatus_draws (w : Word) (s : State) : (writeStatus w s).draws = s.draws := rfl
@[simp] theorem writeStatus_era (w : Word) (s : State) : (writeStatus w s).era = s.era := rfl

/-! ### A lost write (R68) -/

@[simp] theorem overrun_params (s : State) : (overrun s).params = s.params := rfl
@[simp] theorem overrun_status (s : State) : (overrun s).status = statusOverrun s.status := rfl
@[simp] theorem overrun_config (s : State) : (overrun s).config = s.config := rfl
@[simp] theorem overrun_symCount (s : State) : (overrun s).symCount = s.symCount := rfl
@[simp] theorem overrun_byteCount (s : State) : (overrun s).byteCount = s.byteCount := rfl
@[simp] theorem overrun_resPad (s : State) : (overrun s).resPad = s.resPad := rfl
@[simp] theorem overrun_resNbits (s : State) : (overrun s).resNbits = s.resNbits := rfl
@[simp] theorem overrun_errInfo (s : State) : (overrun s).errInfo = s.errInfo := rfl
@[simp] theorem overrun_ct (s : State) : (overrun s).ct = s.ct := rfl
@[simp] theorem overrun_symBuf (s : State) : (overrun s).symBuf = s.symBuf := rfl
@[simp] theorem overrun_byteBuf (s : State) : (overrun s).byteBuf = s.byteBuf := rfl
@[simp] theorem overrun_pending (s : State) : (overrun s).pending = s.pending := rfl
@[simp] theorem overrun_prog (s : State) : (overrun s).prog = s.prog := rfl
@[simp] theorem overrun_received (s : State) : (overrun s).received = s.received := rfl
@[simp] theorem overrun_sched (s : State) : (overrun s).sched = s.sched := rfl
@[simp] theorem overrun_draws (s : State) : (overrun s).draws = s.draws := rfl
@[simp] theorem overrun_era (s : State) : (overrun s).era = s.era := rfl

/-! ### SoftReset (R211) -/

@[simp] theorem softReset_params (s : State) : (softReset s).params = s.params := rfl
@[simp] theorem softReset_status (s : State) : (softReset s).status = statusReset := rfl
@[simp] theorem softReset_config (s : State) : (softReset s).config = configReset := rfl
@[simp] theorem softReset_symCount (s : State) : (softReset s).symCount = 0#32 := rfl
@[simp] theorem softReset_byteCount (s : State) : (softReset s).byteCount = 0#32 := rfl
@[simp] theorem softReset_resPad (s : State) : (softReset s).resPad = 0#8 := rfl
@[simp] theorem softReset_resNbits (s : State) : (softReset s).resNbits = 0#32 := rfl
@[simp] theorem softReset_errInfo (s : State) : (softReset s).errInfo = 0#32 := rfl
@[simp] theorem softReset_ct (s : State) : (softReset s).ct = ctMap entryInvalidate s.ct := rfl
@[simp] theorem softReset_symBuf (s : State) : (softReset s).symBuf = s.symBuf := rfl
@[simp] theorem softReset_byteBuf (s : State) : (softReset s).byteBuf = s.byteBuf := rfl
@[simp] theorem softReset_pending (s : State) : (softReset s).pending = none := rfl
@[simp] theorem softReset_prog (s : State) : (softReset s).prog = s.prog := rfl
@[simp] theorem softReset_received (s : State) : (softReset s).received = s.received := rfl
@[simp] theorem softReset_sched (s : State) : (softReset s).sched = s.sched := rfl
@[simp] theorem softReset_draws (s : State) : (softReset s).draws = s.draws := rfl
@[simp] theorem softReset_era (s : State) : (softReset s).era = s.era := rfl

/-! ### HardReset (R210) -/

@[simp] theorem hardReset_params (s : State) : (hardReset s).params = s.params := rfl
@[simp] theorem hardReset_status (s : State) : (hardReset s).status = statusReset := rfl
@[simp] theorem hardReset_config (s : State) : (hardReset s).config = configReset := rfl
@[simp] theorem hardReset_symCount (s : State) : (hardReset s).symCount = 0#32 := rfl
@[simp] theorem hardReset_byteCount (s : State) : (hardReset s).byteCount = 0#32 := rfl
@[simp] theorem hardReset_resPad (s : State) : (hardReset s).resPad = 0#8 := rfl
@[simp] theorem hardReset_resNbits (s : State) : (hardReset s).resNbits = 0#32 := rfl
@[simp] theorem hardReset_errInfo (s : State) : (hardReset s).errInfo = 0#32 := rfl
@[simp] theorem hardReset_ct (s : State) : (hardReset s).ct = Vector.replicate Config.nsym CtEntry.afterRst := rfl
@[simp] theorem hardReset_symBuf (s : State) : (hardReset s).symBuf = [] := rfl
@[simp] theorem hardReset_byteBuf (s : State) : (hardReset s).byteBuf = [] := rfl
@[simp] theorem hardReset_pending (s : State) : (hardReset s).pending = none := rfl
@[simp] theorem hardReset_prog (s : State) : (hardReset s).prog = s.prog := rfl
@[simp] theorem hardReset_received (s : State) : (hardReset s).received = s.received := rfl
@[simp] theorem hardReset_sched (s : State) : (hardReset s).sched = s.sched := rfl
@[simp] theorem hardReset_draws (s : State) : (hardReset s).draws = s.draws := rfl
@[simp] theorem hardReset_era (s : State) : (hardReset s).era = s.era + 1 := rfl

/-! ### The writes of a successful PACK (R124, R125) -/

@[simp] theorem packStore_params (r : PackOut) (s : State) : (packStore r s).params = s.params := rfl
@[simp] theorem packStore_status (r : PackOut) (s : State) : (packStore r s).status = s.status := rfl
@[simp] theorem packStore_config (r : PackOut) (s : State) : (packStore r s).config = s.config := rfl
@[simp] theorem packStore_symCount (r : PackOut) (s : State) : (packStore r s).symCount = s.symCount := rfl
@[simp] theorem packStore_byteCount (r : PackOut) (s : State) : (packStore r s).byteCount = BitVec.ofNat 32 r.bytes.length := rfl
@[simp] theorem packStore_resPad (r : PackOut) (s : State) : (packStore r s).resPad = BitVec.ofNat 8 r.pad := rfl
@[simp] theorem packStore_resNbits (r : PackOut) (s : State) : (packStore r s).resNbits = BitVec.ofNat 32 r.nbits := rfl
@[simp] theorem packStore_errInfo (r : PackOut) (s : State) : (packStore r s).errInfo = s.errInfo := rfl
@[simp] theorem packStore_ct (r : PackOut) (s : State) : (packStore r s).ct = s.ct := rfl
@[simp] theorem packStore_symBuf (r : PackOut) (s : State) : (packStore r s).symBuf = s.symBuf := rfl
@[simp] theorem packStore_byteBuf (r : PackOut) (s : State) : (packStore r s).byteBuf = s.byteBuf.writeBytes 0 r.bytes := rfl
@[simp] theorem packStore_pending (r : PackOut) (s : State) : (packStore r s).pending = s.pending := rfl
@[simp] theorem packStore_prog (r : PackOut) (s : State) : (packStore r s).prog = s.prog := rfl
@[simp] theorem packStore_received (r : PackOut) (s : State) : (packStore r s).received = s.received := rfl
@[simp] theorem packStore_sched (r : PackOut) (s : State) : (packStore r s).sched = s.sched := rfl
@[simp] theorem packStore_draws (r : PackOut) (s : State) : (packStore r s).draws = s.draws := rfl
@[simp] theorem packStore_era (r : PackOut) (s : State) : (packStore r s).era = s.era := rfl

/-! ### The writes of a successful UNPACK (R146) -/

@[simp] theorem unpackStore_params (r : UnpackOut) (s : State) : (unpackStore r s).params = s.params := rfl
@[simp] theorem unpackStore_status (r : UnpackOut) (s : State) : (unpackStore r s).status = s.status := rfl
@[simp] theorem unpackStore_config (r : UnpackOut) (s : State) : (unpackStore r s).config = s.config := rfl
@[simp] theorem unpackStore_symCount (r : UnpackOut) (s : State) : (unpackStore r s).symCount = BitVec.ofNat 32 r.symbols.length := rfl
@[simp] theorem unpackStore_byteCount (r : UnpackOut) (s : State) : (unpackStore r s).byteCount = s.byteCount := rfl
@[simp] theorem unpackStore_resPad (r : UnpackOut) (s : State) : (unpackStore r s).resPad = r.pad := rfl
@[simp] theorem unpackStore_resNbits (r : UnpackOut) (s : State) : (unpackStore r s).resNbits = BitVec.ofNat 32 r.nbits := rfl
@[simp] theorem unpackStore_errInfo (r : UnpackOut) (s : State) : (unpackStore r s).errInfo = s.errInfo := rfl
@[simp] theorem unpackStore_ct (r : UnpackOut) (s : State) : (unpackStore r s).ct = s.ct := rfl
@[simp] theorem unpackStore_symBuf (r : UnpackOut) (s : State) : (unpackStore r s).symBuf = s.symBuf.writeBytes 0 r.symbols := rfl
@[simp] theorem unpackStore_byteBuf (r : UnpackOut) (s : State) : (unpackStore r s).byteBuf = s.byteBuf := rfl
@[simp] theorem unpackStore_pending (r : UnpackOut) (s : State) : (unpackStore r s).pending = s.pending := rfl
@[simp] theorem unpackStore_prog (r : UnpackOut) (s : State) : (unpackStore r s).prog = s.prog := rfl
@[simp] theorem unpackStore_received (r : UnpackOut) (s : State) : (unpackStore r s).received = s.received := rfl
@[simp] theorem unpackStore_sched (r : UnpackOut) (s : State) : (unpackStore r s).sched = s.sched := rfl
@[simp] theorem unpackStore_draws (r : UnpackOut) (s : State) : (unpackStore r s).draws = s.draws := rfl
@[simp] theorem unpackStore_era (r : UnpackOut) (s : State) : (unpackStore r s).era = s.era := rfl

/-! ### An answer to the host -/

@[simp] theorem answer_params (r : Resp) (s : State) : (answer r s).params = s.params := rfl
@[simp] theorem answer_status (r : Resp) (s : State) : (answer r s).status = s.status := rfl
@[simp] theorem answer_config (r : Resp) (s : State) : (answer r s).config = s.config := rfl
@[simp] theorem answer_symCount (r : Resp) (s : State) : (answer r s).symCount = s.symCount := rfl
@[simp] theorem answer_byteCount (r : Resp) (s : State) : (answer r s).byteCount = s.byteCount := rfl
@[simp] theorem answer_resPad (r : Resp) (s : State) : (answer r s).resPad = s.resPad := rfl
@[simp] theorem answer_resNbits (r : Resp) (s : State) : (answer r s).resNbits = s.resNbits := rfl
@[simp] theorem answer_errInfo (r : Resp) (s : State) : (answer r s).errInfo = s.errInfo := rfl
@[simp] theorem answer_ct (r : Resp) (s : State) : (answer r s).ct = s.ct := rfl
@[simp] theorem answer_symBuf (r : Resp) (s : State) : (answer r s).symBuf = s.symBuf := rfl
@[simp] theorem answer_byteBuf (r : Resp) (s : State) : (answer r s).byteBuf = s.byteBuf := rfl
@[simp] theorem answer_pending (r : Resp) (s : State) : (answer r s).pending = s.pending := rfl
@[simp] theorem answer_prog (r : Resp) (s : State) : (answer r s).prog = s.prog := rfl
@[simp] theorem answer_received (r : Resp) (s : State) : (answer r s).received = r :: s.received := rfl
@[simp] theorem answer_sched (r : Resp) (s : State) : (answer r s).sched = s.sched := rfl
@[simp] theorem answer_draws (r : Resp) (s : State) : (answer r s).draws = s.draws := rfl
@[simp] theorem answer_era (r : Resp) (s : State) : (answer r s).era = s.era := rfl

/-! ### The schedule moves on -/

@[simp] theorem passTurn_params (s : State) : (passTurn s).params = s.params := rfl
@[simp] theorem passTurn_status (s : State) : (passTurn s).status = s.status := rfl
@[simp] theorem passTurn_config (s : State) : (passTurn s).config = s.config := rfl
@[simp] theorem passTurn_symCount (s : State) : (passTurn s).symCount = s.symCount := rfl
@[simp] theorem passTurn_byteCount (s : State) : (passTurn s).byteCount = s.byteCount := rfl
@[simp] theorem passTurn_resPad (s : State) : (passTurn s).resPad = s.resPad := rfl
@[simp] theorem passTurn_resNbits (s : State) : (passTurn s).resNbits = s.resNbits := rfl
@[simp] theorem passTurn_errInfo (s : State) : (passTurn s).errInfo = s.errInfo := rfl
@[simp] theorem passTurn_ct (s : State) : (passTurn s).ct = s.ct := rfl
@[simp] theorem passTurn_symBuf (s : State) : (passTurn s).symBuf = s.symBuf := rfl
@[simp] theorem passTurn_byteBuf (s : State) : (passTurn s).byteBuf = s.byteBuf := rfl
@[simp] theorem passTurn_pending (s : State) : (passTurn s).pending = s.pending := rfl
@[simp] theorem passTurn_prog (s : State) : (passTurn s).prog = s.prog := rfl
@[simp] theorem passTurn_received (s : State) : (passTurn s).received = s.received := rfl
@[simp] theorem passTurn_sched (s : State) : (passTurn s).sched = s.sched.tail := rfl
@[simp] theorem passTurn_draws (s : State) : (passTurn s).draws = s.draws := rfl
@[simp] theorem passTurn_era (s : State) : (passTurn s).era = s.era := rfl

/-! ### The error report (R185) -/

@[simp] theorem errorReport_params (cmd : Option Instr) (e : CmdError) (s : State) : (errorReport cmd e s).params = s.params := by
  rcases cmd with _ | _ | _ | _ | _ | _ <;> rfl
@[simp] theorem errorReport_config (cmd : Option Instr) (e : CmdError) (s : State) : (errorReport cmd e s).config = s.config := by
  rcases cmd with _ | _ | _ | _ | _ | _ <;> rfl
@[simp] theorem errorReport_ct (cmd : Option Instr) (e : CmdError) (s : State) : (errorReport cmd e s).ct = s.ct := by
  rcases cmd with _ | _ | _ | _ | _ | _ <;> rfl
@[simp] theorem errorReport_symBuf (cmd : Option Instr) (e : CmdError) (s : State) : (errorReport cmd e s).symBuf = s.symBuf := by
  rcases cmd with _ | _ | _ | _ | _ | _ <;> rfl
@[simp] theorem errorReport_byteBuf (cmd : Option Instr) (e : CmdError) (s : State) : (errorReport cmd e s).byteBuf = s.byteBuf := by
  rcases cmd with _ | _ | _ | _ | _ | _ <;> rfl
@[simp] theorem errorReport_prog (cmd : Option Instr) (e : CmdError) (s : State) : (errorReport cmd e s).prog = s.prog := by
  rcases cmd with _ | _ | _ | _ | _ | _ <;> rfl
@[simp] theorem errorReport_received (cmd : Option Instr) (e : CmdError) (s : State) : (errorReport cmd e s).received = s.received := by
  rcases cmd with _ | _ | _ | _ | _ | _ <;> rfl
@[simp] theorem errorReport_sched (cmd : Option Instr) (e : CmdError) (s : State) : (errorReport cmd e s).sched = s.sched := by
  rcases cmd with _ | _ | _ | _ | _ | _ <;> rfl
@[simp] theorem errorReport_draws (cmd : Option Instr) (e : CmdError) (s : State) : (errorReport cmd e s).draws = s.draws := by
  rcases cmd with _ | _ | _ | _ | _ | _ <;> rfl
@[simp] theorem errorReport_era (cmd : Option Instr) (e : CmdError) (s : State) : (errorReport cmd e s).era = s.era := by
  rcases cmd with _ | _ | _ | _ | _ | _ <;> rfl
@[simp] theorem errorReport_status (cmd : Option Instr) (e : CmdError) (s : State) :
    (errorReport cmd e s).status = statusComplete (errCode e) s.status := by
  rcases cmd with _ | _ | _ | _ | _ | _ <;> rfl
@[simp] theorem errorReport_errInfo (cmd : Option Instr) (e : CmdError) (s : State) :
    (errorReport cmd e s).errInfo = errInfoOf e := rfl
@[simp] theorem errorReport_pending (cmd : Option Instr) (e : CmdError) (s : State) :
    (errorReport cmd e s).pending = none := rfl
@[simp] theorem errorReport_pack_symCount (e : CmdError) (s : State) : (errorReport (some .pack) e s).symCount = s.symCount := rfl
@[simp] theorem errorReport_pack_byteCount (e : CmdError) (s : State) : (errorReport (some .pack) e s).byteCount = 0#32 := rfl
@[simp] theorem errorReport_pack_resPad (e : CmdError) (s : State) : (errorReport (some .pack) e s).resPad = 0#8 := rfl
@[simp] theorem errorReport_pack_resNbits (e : CmdError) (s : State) : (errorReport (some .pack) e s).resNbits = 0#32 := rfl
@[simp] theorem errorReport_unpack_symCount (e : CmdError) (s : State) : (errorReport (some .unpack) e s).symCount = 0#32 := rfl
@[simp] theorem errorReport_unpack_byteCount (e : CmdError) (s : State) : (errorReport (some .unpack) e s).byteCount = s.byteCount := rfl
@[simp] theorem errorReport_unpack_resPad (e : CmdError) (s : State) : (errorReport (some .unpack) e s).resPad = 0#8 := rfl
@[simp] theorem errorReport_unpack_resNbits (e : CmdError) (s : State) : (errorReport (some .unpack) e s).resNbits = 0#32 := rfl
@[simp] theorem errorReport_illegal_symCount (e : CmdError) (s : State) : (errorReport none e s).symCount = s.symCount := rfl
@[simp] theorem errorReport_illegal_byteCount (e : CmdError) (s : State) : (errorReport none e s).byteCount = s.byteCount := rfl
@[simp] theorem errorReport_illegal_resPad (e : CmdError) (s : State) : (errorReport none e s).resPad = s.resPad := rfl
@[simp] theorem errorReport_illegal_resNbits (e : CmdError) (s : State) : (errorReport none e s).resNbits = s.resNbits := rfl

/-! ### The fields of STATUS -/

@[simp] theorem statusAccept_busy (st : Status) : (statusAccept st).busy = true := rfl
@[simp] theorem statusAccept_done (st : Status) : (statusAccept st).done = false := rfl
@[simp] theorem statusAccept_ovr (st : Status) : (statusAccept st).ovr = st.ovr := rfl
@[simp] theorem statusAccept_err (st : Status) : (statusAccept st).err = 0#4 := rfl
@[simp] theorem statusComplete_busy (c : BitVec 4) (st : Status) : (statusComplete c st).busy = false := rfl
@[simp] theorem statusComplete_done (c : BitVec 4) (st : Status) : (statusComplete c st).done = true := rfl
@[simp] theorem statusComplete_ovr (c : BitVec 4) (st : Status) : (statusComplete c st).ovr = st.ovr := rfl
@[simp] theorem statusComplete_err (c : BitVec 4) (st : Status) : (statusComplete c st).err = c := rfl
@[simp] theorem statusOverrun_busy (st : Status) : (statusOverrun st).busy = st.busy := rfl
@[simp] theorem statusOverrun_done (st : Status) : (statusOverrun st).done = st.done := rfl
@[simp] theorem statusOverrun_ovr (st : Status) : (statusOverrun st).ovr = true := rfl
@[simp] theorem statusOverrun_err (st : Status) : (statusOverrun st).err = st.err := rfl
@[simp] theorem statusW1c_busy (w : Word) (st : Status) : (statusW1c w st).busy = st.busy := rfl
@[simp] theorem statusW1c_done (w : Word) (st : Status) : (statusW1c w st).done = (st.done && !w.getLsbD 1) := rfl
@[simp] theorem statusW1c_ovr (w : Word) (st : Status) : (statusW1c w st).ovr = (st.ovr && !w.getLsbD 2) := rfl
@[simp] theorem statusW1c_err (w : Word) (st : Status) : (statusW1c w st).err = if w.getLsbD 1 then 0#4 else st.err := rfl
@[simp] theorem statusReset_busy : statusReset.busy = false := rfl
@[simp] theorem statusReset_done : statusReset.done = false := rfl
@[simp] theorem statusReset_ovr : statusReset.ovr = false := rfl
@[simp] theorem statusReset_err : statusReset.err = 0#4 := rfl

end Sys2Proof.Machine
end

