-- ==== Sys2Proof/Laws/Bus.lean ====
section
/-! SUPPORT. What a bus access and a host turn can do, said once: a read changes only the counter of free words; a write
does nothing, sets OVR, or writes its target; a host turn is one access, answered, with the host's list moved on. -/

namespace Sys2Proof.Machine

/-- An aligned 32-bit access inside the block is served. -/
theorem isBadAccess_false (a : Nat) (h4 : a % 4 = 0) (hr : a < 0x40000) : isBadAccess .w32 a = false := by
  have h : ¬ Config.blockSize ≤ a := by
    show ¬ 0x40000 ≤ a
    omega
  simp [isBadAccess, h4, h]

/-- Every way a read can go. -/
theorem busRead_cases (width : Width) (a : Nat) (s : State) :
    (isBadAccess width a = true ∧ busRead width a s = (s, .error)) ∨
    (isBadAccess width a = false ∧ s.status.busy = true ∧ definedWhileBusy (targetOf a) = false ∧
      busRead width a s = ({ s with draws := s.draws + 1 }, .data (Config.freeBusyWord s.draws))) ∨
    (isBadAccess width a = false ∧ (s.status.busy = false ∨ definedWhileBusy (targetOf a) = true) ∧
      busRead width a s = (s, .data (readTarget (targetOf a) s))) := by
  unfold busRead
  cases hb : isBadAccess width a <;> cases hs : s.status.busy <;> cases hd : definedWhileBusy (targetOf a) <;> simp

/-- Every way a write can go. -/
theorem busWrite_cases (width : Width) (a : Nat) (v : Word) (s : State) :
    (isBadAccess width a = true ∧ busWrite width a v s = (s, .error)) ∨
    (isBadAccess width a = false ∧ targetOf a = .reserved ∧ busWrite width a v s = (s, .okay)) ∨
    (isBadAccess width a = false ∧ targetOf a ≠ .reserved ∧ s.status.busy = true ∧ targetOf a ≠ .status ∧
      busWrite width a v s = (overrun s, .okay)) ∨
    (isBadAccess width a = false ∧ targetOf a ≠ .reserved ∧ (s.status.busy = false ∨ targetOf a = .status) ∧
      busWrite width a v s = (writeTarget (targetOf a) v s, .okay)) := by
  unfold busWrite isReserved
  cases hb : isBadAccess width a <;> cases hs : s.status.busy <;> by_cases hr : targetOf a = .reserved <;>
    by_cases hst : targetOf a = .status <;> simp [hr, hst]

/-- A write while the block is idle, to a target that is not reserved. -/
theorem busWrite_idle (a : Nat) (v : Word) (s : State) (h4 : a % 4 = 0) (hr : a < 0x40000)
    (hs : s.status.busy = false) (ht : targetOf a ≠ .reserved) :
    busWrite .w32 a v s = (writeTarget (targetOf a) v s, .okay) := by
  simp [busWrite, isBadAccess_false a h4 hr, isReserved, hs, ht]

/-- A read while the block is idle. -/
theorem busRead_idle (a : Nat) (s : State) (h4 : a % 4 = 0) (hr : a < 0x40000) (hs : s.status.busy = false) :
    busRead .w32 a s = (s, .data (readTarget (targetOf a) s)) := by
  simp [busRead, isBadAccess_false a h4 hr, hs]

/-- Bit 0 of STATUS is BUSY (R25). -/
theorem statusWord_busy (st : Status) : (statusWord st).getLsbD 0 = st.busy := by
  unfold statusWord
  rw [BitVec.getLsbD_append]
  simp

/-- Every way a host turn can go. -/
theorem hostTurn_cases (s : State) :
    (s.prog = [] ∧ hostTurn s = s) ∨
    (∃ width addr more, s.prog = .read width addr :: more ∧
      hostTurn s = transact addr (busRead width) { s with prog := more }) ∨
    (∃ width addr v more, s.prog = .write width addr v :: more ∧
      hostTurn s = transact addr (fun a => busWrite width a v) { s with prog := more }) ∨
    (∃ more, s.prog = .wait :: more ∧ hostTurn s = answer (.data (statusWord s.status))
      (if s.status.busy then s else { s with prog := more })) := by
  unfold hostTurn
  rcases hp : s.prog with _ | ⟨op, more⟩
  · simp
  · cases op with
    | read width addr => exact .inr (.inl ⟨width, addr, more, rfl, rfl⟩)
    | write width addr v => exact .inr (.inr (.inl ⟨width, addr, v, more, rfl, rfl⟩))
    | wait =>
      refine .inr (.inr (.inr ⟨more, rfl, ?_⟩))
      have hr : (busRead .w32 0x008 s).2 = .data (statusWord s.status) := by
        have ht : targetOf 0x008 = .status := rfl
        simp [busRead, isBadAccess_false, ht, definedWhileBusy, readTarget]
      have hw : waitEnds (.data (statusWord s.status)) = !s.status.busy :=
        congrArg (!·) (statusWord_busy s.status)
      simp only [hr, hw]
      cases s.status.busy <;> rfl

/-- Every way a transaction at a host address can go. -/
theorem transact_cases (addr : Nat) (access : Nat → State → State × Resp) (s : State) :
    ((addr < s.params.blockBase ∨ s.params.blockBase + 0x40000 ≤ addr) ∧
      transact addr access s = answer .notReached s) ∨
    ∃ a, a < 0x40000 ∧ addr = s.params.blockBase + a ∧
      transact addr access s = answer (access a s).2 (access a s).1 := by
  unfold transact hostOffset
  have hsz : Config.blockSize = 0x40000 := rfl
  by_cases h : s.params.blockBase ≤ addr ∧ addr < s.params.blockBase + Config.blockSize
  · refine .inr ⟨addr - s.params.blockBase, by omega, by omega, ?_⟩
    simp [h]
  · refine .inl ⟨by omega, ?_⟩
    simp [h]

end Sys2Proof.Machine
end

