-- ==== Sys2Proof/Laws/Hazard.lean ====
section
/-! SUPPORT. The small laws of the busy window (70_reset_and_hazards.md R220). -/

namespace Sys2Proof.Machine

/-- The host address of a block offset (R60). -/
theorem hostOffset_eq_some (p : Params) (addr a : Nat) (ha : a < 0x40000) :
    hostOffset p addr = some a ↔ addr = p.blockBase + a := by
  have hb : Config.blockSize = 0x40000 := rfl
  unfold hostOffset
  rw [hb]
  split <;> simp <;> omega

theorem inWindow_of_busy (u : Bool) (s : State) (h : s.status.busy = true) : inWindow u s = true := by
  simp [inWindow, h]

/-- What closes an open window. -/
theorem windowAfter_eq_false (u : Bool) (s t : State) (hw : inWindow u s = true) :
    windowAfter u s t = false ↔ nextTurn s = .rst ∨ irqOut t = true ∨ statusReadSeesIdle s = true := by
  unfold windowAfter
  cases nextTurn s <;> simp [hw] <;> cases irqOut t <;> cases statusReadSeesIdle s <;> simp

end Sys2Proof.Machine
end

