-- ==== Sys2Proof/Laws/Memory.lean ====
section
/-! SUPPORT. The laws of the buffer memories: a read after a write, every other byte left alone, and the canonical form
kept by every operation. -/

namespace Sys2Proof.Machine

@[simp] theorem Memory.read?_nil (a : Nat) : Memory.read? [] a = none := rfl

theorem Memory.read?_cons (c : Host.Cell) (m : Memory) (a : Nat) :
    Memory.read? (c :: m) a = if a = c.1 then some c.2 else Memory.read? m a := rfl

/-- Reading the byte just written. -/
@[simp] theorem Memory.read?_write_same (m : Memory) (a : Nat) (v : Byte) :
    (Memory.write m a v).read? a = some v := by
  induction m with
  | nil => simp [Memory.write, Memory.read?_cons]
  | cons c m ih =>
    unfold Memory.write
    split
    · simp [Memory.read?_cons]
    · split
      · simp [Memory.read?_cons]
      · rename_i h
        simp [Memory.read?_cons, h, ih]

/-- A write leaves every other byte alone. -/
theorem Memory.read?_write_other (m : Memory) (a b : Nat) (v : Byte) (h : b ≠ a) :
    (Memory.write m a v).read? b = m.read? b := by
  induction m with
  | nil => simp [Memory.write, Memory.read?_cons, h]
  | cons c m ih =>
    unfold Memory.write
    split
    · simp [Memory.read?_cons, h]
    · split
      · rename_i h2
        subst h2
        simp [Memory.read?_cons, h]
      · simp [Memory.read?_cons, ih]

/-- What the bytes of a run of writes read as. -/
theorem Memory.read?_writeBytes (vs : List Byte) (m : Memory) (a b : Nat) :
    (Memory.writeBytes m a vs).read? b =
      if a ≤ b ∧ b < a + vs.length then vs[b - a]? else m.read? b := by
  induction vs generalizing m a with
  | nil => simp [Memory.writeBytes]
  | cons v vs ih =>
    rw [Memory.writeBytes, ih]
    by_cases hb : b = a
    · subst hb
      simp
    · rw [Memory.read?_write_other _ _ _ _ hb]
      by_cases hc : a + 1 ≤ b
      · obtain ⟨k, rfl⟩ := Nat.exists_eq_add_of_le hc
        have h1 : a + 1 + k - (a + 1) = k := by omega
        have h2 : a + 1 + k - a = k + 1 := by omega
        rw [h1, h2]
        simp only [List.length_cons, List.getElem?_cons_succ]
        congr 1
        simp only [eq_iff_iff]
        omega
      · have h1 : ¬ (a ≤ b ∧ b < a + (v :: vs).length) := by omega
        have h2 : ¬ (a + 1 ≤ b ∧ b < a + 1 + vs.length) := by omega
        rw [if_neg h1, if_neg h2]

/-- Every address a write lists was listed before or is the one written. -/
theorem Memory.mem_write (m : Memory) (a : Nat) (v : Byte) (x : Host.Cell) (h : x ∈ Memory.write m a v) :
    x = (a, v) ∨ x ∈ m := by
  induction m with
  | nil => simpa [Memory.write] using h
  | cons c m ih =>
    unfold Memory.write at h
    split at h
    · simpa using h
    · split at h
      · rcases List.mem_cons.mp h with h | h
        · exact .inl h
        · exact .inr (List.mem_cons_of_mem _ h)
      · rcases List.mem_cons.mp h with h | h
        · exact .inr (h ▸ List.mem_cons_self)
        · exact (ih h).imp id (List.mem_cons_of_mem _)

/-- A write keeps the canonical form. -/
theorem Memory.wf_write (m : Memory) (a : Nat) (v : Byte) (h : m.wf) : (Memory.write m a v).wf := by
  induction m with
  | nil => simp [Memory.write, Memory.wf]
  | cons c m ih =>
    have hc := List.pairwise_cons.mp h
    unfold Memory.write
    split
    · rename_i hlt
      refine List.pairwise_cons.mpr ⟨?_, h⟩
      intro x hx
      rcases List.mem_cons.mp hx with rfl | hx
      · exact hlt
      · exact hlt.trans (hc.1 x hx)
    · split
      · rename_i _ heq
        subst heq
        exact List.pairwise_cons.mpr ⟨hc.1, hc.2⟩
      · rename_i hnlt hne
        refine List.pairwise_cons.mpr ⟨?_, ih hc.2⟩
        intro x hx
        rcases Memory.mem_write _ _ _ _ hx with rfl | hx
        · show c.1 < a
          omega
        · exact hc.1 x hx

/-- A run of writes keeps the canonical form. -/
theorem Memory.wf_writeBytes (vs : List Byte) (m : Memory) (a : Nat) (h : m.wf) :
    (Memory.writeBytes m a vs).wf := by
  induction vs generalizing m a with
  | nil => exact h
  | cons v vs ih => exact ih _ _ (Memory.wf_write m a v h)

/-- A run of writes below a bound keeps every listed address below it. -/
theorem Memory.bound_writeBytes (vs : List Byte) (m : Memory) (a d : Nat) (h : ∀ x ∈ m, x.1 < d)
    (ha : a + vs.length ≤ d) : ∀ x ∈ Memory.writeBytes m a vs, x.1 < d := by
  induction vs generalizing m a with
  | nil => exact h
  | cons v vs ih =>
    simp only [List.length_cons] at ha
    refine ih _ _ (fun x hx => ?_) (by omega)
    rcases Memory.mem_write _ _ _ _ hx with rfl | hx
    · show a < d
      omega
    · exact h x hx

/-- A window write keeps the canonical form. -/
theorem wf_writeWindow (d : Nat) (m : Memory) (k : Nat) (v : Word) (h : m.wf) : (writeWindow d m k v).wf := by
  unfold writeWindow
  split
  · exact Memory.wf_writeBytes _ _ _ h
  · exact h

/-- A window write lists no address beyond the depth (a multiple of 4, R5). -/
theorem bound_writeWindow (d : Nat) (m : Memory) (k : Nat) (v : Word) (hd : d % 4 = 0) (h : ∀ x ∈ m, x.1 < d) :
    ∀ x ∈ writeWindow d m k v, x.1 < d := by
  unfold writeWindow
  split
  · exact Memory.bound_writeBytes _ _ _ _ h (by simp only [List.length_cons, List.length_nil]; omega)
  · exact h

/-- The memory after rst has the canonical form. -/
theorem wf_empty : Memory.wf [] := List.Pairwise.nil

/-- Both buffers of the reset state have the canonical form. -/
theorem wf_reset : State.reset.symBuf.wf ∧ State.reset.byteBuf.wf := ⟨wf_empty, wf_empty⟩

end Sys2Proof.Machine
end

