-- ==== Sys2Proof/Laws/Pack.lean ====
section
/-! SUPPORT. The small laws of PACK's parts: the missing-code search, the padding, and the form of a result. -/

namespace Sys2Proof.Machine

/-- The search finds nothing exactly where every symbol has a valid entry. -/
theorem firstMissing_none (s : State) (k : Nat) (l : List Byte) :
    firstMissing s k l = none ↔ ∀ c ∈ l, ctValid s c = true := by
  induction l generalizing k with
  | nil => simp [firstMissing]
  | cons c l ih =>
    unfold firstMissing
    cases hc : ctValid s c <;> simp [hc, ih]

/-- What the search finds is the first symbol without a valid entry. -/
theorem firstMissing_of_first (s : State) (k i : Nat) (l : List Byte) (c : Byte) (hi : l[i]? = some c)
    (hc : ctValid s c = false) (hb : ∀ j < i, ∀ d, l[j]? = some d → ctValid s d = true) :
    firstMissing s k l = some (k + i, c) := by
  induction l generalizing k i with
  | nil => simp at hi
  | cons d l ih =>
    cases i with
    | zero =>
      have hd : d = c := by simpa using hi
      simp [firstMissing, hd, hc]
    | succ i =>
      have hd : ctValid s d = true := hb 0 (by omega) d (by simp)
      have := ih (k + 1) i (by simpa using hi) (fun j hj e he => hb (j + 1) (by omega) e (by simpa using he))
      simp only [firstMissing, hd, if_true, this]
      congr 2
      omega

/-- The padding completes the last byte (R122). -/
theorem padLen_aligns (n : Nat) (m : Bool) : (n + padLen n m) % 8 = 0 := by
  unfold padLen
  cases m <;> simp <;> omega

/-- The padding is at most 8 (R122). -/
theorem padLen_le (n : Nat) (m : Bool) : padLen n m ≤ 8 := by
  unfold padLen
  cases m <;> simp
  omega

@[simp] theorem packInput_length (s : State) : (packInput s).length = s.symCount.toNat := by simp [packInput]

/-- The stream PACK writes for code bits `bits` under padding rule `m` (R120, R123, R124). -/
def packStream (bits : Bits) (m : Bool) : List Byte :=
  BitVec.ofNat 8 (padLen bits.length m) ::
    packBytes ((bits.length + padLen bits.length m) / 8) (bits ++ List.replicate (padLen bits.length m) false)

@[simp] theorem packStream_length (bits : Bits) (m : Bool) :
    (packStream bits m).length = 1 + (bits.length + padLen bits.length m) / 8 := by
  simp [packStream]; omega

/-- The payload of that stream, expanded, is the code bits and the padding. -/
theorem packStream_payload (bits : Bits) (m : Bool) :
    (packStream bits m).tail.flatMap byteBits = bits ++ List.replicate (padLen bits.length m) false := by
  have h := padLen_aligns bits.length m
  refine flatMap_byteBits_packBytes _ _ ?_
  simp
  omega

/-- PACK's run where the count is in range and every symbol has a valid entry. -/
theorem packRun_of_valid (s : State) (hn : s.symCount.toNat ≤ s.params.symDepth)
    (hv : ∀ c ∈ packInput s, ctValid s c = true) :
    packRun s =
      if s.params.byteDepth < (packStream (packCodeBits s) s.config.padmode).length then
        .error (.outputOverflow (packStream (packCodeBits s) s.config.padmode).length)
      else .ok
        { bytes := packStream (packCodeBits s) s.config.padmode
          pad := padLen (packCodeBits s).length s.config.padmode
          nbits := (packCodeBits s).length } := by
  unfold packRun
  rw [if_neg (by omega), (firstMissing_none s 0 _).mpr hv]
  simp only [packStream_length]
  split
  · rfl
  · simp [packStream]

/-- A PACK that succeeds had its count in range and every symbol valid. -/
theorem packRun_ok_inv (s : State) (r : PackOut) (h : packRun s = .ok r) :
    s.symCount.toNat ≤ s.params.symDepth ∧ (∀ c ∈ packInput s, ctValid s c = true) ∧
    r.bytes = packStream (packCodeBits s) s.config.padmode ∧
    r.pad = padLen (packCodeBits s).length s.config.padmode ∧ r.nbits = (packCodeBits s).length ∧
    r.bytes.length ≤ s.params.byteDepth := by
  have hn : s.symCount.toNat ≤ s.params.symDepth := by
    by_contra hc
    unfold packRun at h
    rw [if_pos (by omega)] at h
    cases h
  have hv : ∀ c ∈ packInput s, ctValid s c = true := by
    rw [← firstMissing_none s 0]
    cases hm : firstMissing s 0 (packInput s) with
    | none => rfl
    | some x =>
      unfold packRun at h
      rw [if_neg (by omega), hm] at h
      cases h
  rw [packRun_of_valid s hn hv] at h
  split at h
  · cases h
  · rename_i hl
    cases h
    exact ⟨hn, hv, rfl, rfl, rfl, by simp only; omega⟩

end Sys2Proof.Machine
end

