-- ==== Sys2Proof/Laws/PerInstr.lean ====
section
/-! SUPPORT. One lemma per command about its word: it is well-formed and decodes back to the command (30_encoding.md
R91, R93). -/

namespace Sys2Proof.Laws.EncodeDecode

/-- The command's word is a legal word and decodes to the command. -/
def Statement (i : Instr) : Prop := i.wellFormed = true ∧ wellFormedWord (encode i) = true ∧ decode (encode i) = .ok i

theorem nop : Statement .nop := ⟨rfl, rfl, rfl⟩

theorem pack : Statement .pack := ⟨rfl, rfl, rfl⟩

theorem unpack : Statement .unpack := ⟨rfl, rfl, rfl⟩

theorem ctClear : Statement .ctClear := ⟨rfl, rfl, rfl⟩

theorem sreset : Statement .sreset := ⟨rfl, rfl, rfl⟩

end Sys2Proof.Laws.EncodeDecode
end

