-- ==== Sys2Proof/Laws/Step.lean ====
section
/-! SUPPORT. What a command, an engine step and a step can do, said once, for later proofs to cite instead of unfolding. -/

namespace Sys2Proof.Machine

/-- Every way PACK can end. -/
theorem execPack_cases (s : State) :
    (∃ e, packRun s = .error e ∧ exec .pack s = .next (errorReport (some .pack) e s)) ∨
    (∃ r, packRun s = .ok r ∧ exec .pack s = .next (complete 0#4 0#32 (packStore r s))) := by
  show (∃ e, _ ∧ execPack s = _) ∨ (∃ r, _ ∧ execPack s = _)
  unfold execPack
  cases h : packRun s with
  | error e => exact .inl ⟨e, rfl, rfl⟩
  | ok r => exact .inr ⟨r, rfl, rfl⟩

/-- Every way UNPACK can end. -/
theorem execUnpack_cases (s : State) :
    (∃ e, unpackRun s = .error e ∧ exec .unpack s = .next (errorReport (some .unpack) e s)) ∨
    (∃ r, unpackRun s = .ok r ∧ exec .unpack s = .next (complete 0#4 0#32 (unpackStore r s))) := by
  show (∃ e, _ ∧ execUnpack s = _) ∨ (∃ r, _ ∧ execUnpack s = _)
  unfold execUnpack
  cases h : unpackRun s with
  | error e => exact .inl ⟨e, rfl, rfl⟩
  | ok r => exact .inr ⟨r, rfl, rfl⟩

/-- An error is never code 0. -/
theorem errCode_ne_zero (e : CmdError) : errCode e ≠ 0#4 := by cases e <;> simp [errCode]

/-- An error code is at most 6. -/
theorem errCode_le (e : CmdError) : (errCode e).toNat ≤ 6 := by cases e <;> simp [errCode]

/-- What an engine step does with a pending word. -/
theorem engineStep_pending (s : State) (w : Word) (h : s.pending = some w) :
    (∃ i, decode w = .ok i ∧ engineStep s = exec i s) ∨
    (∃ r, decode w = .error r ∧ engineStep s = execIllegal w s) := by
  unfold engineStep
  rw [h]
  cases hd : decode w with
  | ok i => exact .inl ⟨i, rfl, by simp [hd]⟩
  | error r => exact .inr ⟨r, rfl, by simp [hd]⟩

/-- Every event a step can be. -/
theorem step_cases (s : State) :
    (nextTurn s = .host ∧ step s = .next (hostTurn (passTurn s))) ∨
    (nextTurn s = .rst ∧ step s = .next (hardReset (passTurn s))) ∨
    (nextTurn s = .engine ∧ s.status.busy = false ∧ step s = .next (passTurn s)) ∨
    (nextTurn s = .engine ∧ s.status.busy = true ∧ step s = engineStep (passTurn s)) := by
  unfold step
  cases ht : nextTurn s with
  | host => exact .inl ⟨rfl, rfl⟩
  | rst => exact .inr (.inl ⟨rfl, rfl⟩)
  | engine =>
    cases hb : s.status.busy with
    | false => exact .inr (.inr (.inl ⟨rfl, rfl, by simp [takeTurn, hb]⟩))
    | true => exact .inr (.inr (.inr ⟨rfl, rfl, by simp [takeTurn, hb]⟩))

/-- A run whose first step answers a next state goes on from it. -/
theorem run_succ_of_step (k : Nat) (s t : State) (h : step s = .next t) :
    Host.Core.run core (k + 1) s = Host.Core.run core k t := by
  have h' : core.step s = .next t := h
  have hr : ∀ M : Host.Core, ∀ x y : M.State, M.step x = .next y → M.run (k + 1) x = M.run k y := by
    intro M x y hxy
    simp only [Host.Core.run, hxy]
  exact hr core s t h'

end Sys2Proof.Machine
end

