-- ==== Sys2Proof/Laws/Table.lean ====
section
/-! SUPPORT. The laws of the code table: reading an entry after each operation over the table. -/

namespace Sys2Proof.Machine

@[simp] theorem ctGet_ctSet_same (t : CodeTable) (c : Byte) (e : CtEntry) : ctGet (ctSet t c e) c = e := by
  simp [ctGet, ctSet]

theorem ctGet_ctSet_other (t : CodeTable) (c d : Byte) (e : CtEntry) (h : d ≠ c) :
    ctGet (ctSet t c e) d = ctGet t d := by
  have hne : c.toNat ≠ d.toNat := fun h2 => h (BitVec.eq_of_toNat_eq h2.symm)
  simp [ctGet, ctSet, hne]

@[simp] theorem ctGet_ctMap (f : CtEntry → CtEntry) (t : CodeTable) (c : Byte) : ctGet (ctMap f t) c = f (ctGet t c) := by
  simp [ctGet, ctMap]

@[simp] theorem ctGet_afterRst (c : Byte) :
    ctGet (Vector.replicate Config.nsym CtEntry.afterRst) c = CtEntry.afterRst := by
  simp [ctGet]

/-- Two code tables with the same entries are the same table. -/
theorem codeTable_ext (t u : CodeTable) (h : ∀ c, ctGet t c = ctGet u c) : t = u := by
  apply Vector.ext
  intro i hi
  have := h (BitVec.ofNat 8 i)
  have hm : i % 256 = i := Nat.mod_eq_of_lt hi
  simpa [ctGet, BitVec.toNat_ofNat, hm] using this

end Sys2Proof.Machine
end

