-- ==== Sys2Proof/Laws/Unpack.lean ====
section
/-! SUPPORT. What the scan of UNPACK does, said once: it follows the greedy decomposition (41_unpack.md R145). -/

namespace Sys2Proof.Machine

@[simp] theorem scan_nil (s : State) (k start : Nat) (acc : Bits) :
    scan s k start acc [] = if acc = [] then .ok [] else .error start := rfl

/-- From an accumulator without a match, the scan answers the greedy decomposition of the accumulator and the rest: its
symbols where nothing is left, else the index where the tail starts. -/
theorem scan_spec (s : State) (rest : Bits) : ∀ (k : Nat) (acc : Bits), acc.length ≤ k → NoMatch s acc →
    ∃ out tail, Greedy s (acc ++ rest) out tail ∧
      scan s k (k - acc.length) acc rest =
        if tail = [] then .ok out else .error (k + rest.length - tail.length) := by
  induction rest with
  | nil =>
    intro k acc hk hn
    refine ⟨[], acc, by simpa using Greedy.rest acc hn, ?_⟩
    by_cases ha : acc = [] <;> simp [scan, ha]
  | cons b bs ih =>
    intro k acc hk hn
    cases hm : matchCode s (acc ++ [b]) with
    | none =>
      have hn' : NoMatch s (acc ++ [b]) := by
        intro j hj1 hj2
        by_cases hj : j ≤ acc.length
        · rw [List.take_append_of_le_length hj]; exact hn j hj1 hj
        · have : (acc ++ [b]).take j = acc ++ [b] := List.take_of_length_le (by simp; omega)
          rw [this]; exact hm
      obtain ⟨out, tail, hg, hs⟩ := ih (k + 1) (acc ++ [b]) (by simp; omega) hn'
      refine ⟨out, tail, by simpa using hg, ?_⟩
      simp only [scan, hm]
      have e1 : k + 1 - (acc ++ [b]).length = k - acc.length := by simp
      rw [e1] at hs
      rw [hs]
      have e2 : k + 1 + bs.length - tail.length = k + (b :: bs).length - tail.length := by simp; omega
      rw [e2]
    | some c =>
      have hf : FirstMatch s (acc ++ b :: bs) (acc.length + 1) c := by
        refine ⟨by omega, by simp, ?_, fun j hj1 hj2 => ?_⟩
        · have : (acc ++ b :: bs).take (acc.length + 1) = acc ++ [b] := by
            rw [List.take_append]; simp
          rw [this]; exact hm
        · rw [List.take_append_of_le_length (by omega)]; exact hn j hj1 (by omega)
      obtain ⟨out, tail, hg, hs⟩ := ih (k + 1) [] (by simp) (by intro j h1 h2; simp at h2; omega)
      have hd : (acc ++ b :: bs).drop (acc.length + 1) = bs := by
        rw [List.drop_append]; simp
      refine ⟨c :: out, tail, .emit _ _ _ _ _ hf (by rw [hd]; simpa using hg), ?_⟩
      simp only [scan, hm]
      have e1 : k + 1 - ([] : Bits).length = k + 1 := by simp
      rw [e1] at hs
      rw [hs]
      split
      · rfl
      · have e2 : k + 1 + bs.length - tail.length = k + (b :: bs).length - tail.length := by simp; omega
        rw [e2]; rfl

end Sys2Proof.Machine
end

