-- ==== Sys2Proof/Laws/Windows.lean ====
section
/-! SUPPORT. The address map of the table and the two windows (20_memory.md R65), and the byte a window write leaves at
each address (R66). -/

namespace Sys2Proof.Machine

/-- Entry c's CODE word in the map of R65. -/
theorem targetOf_ctCode (c : Byte) : targetOf (0x400 + 8 * c.toNat) = .ctCode c := by
  have := c.isLt
  unfold targetOf
  rw [if_neg (by omega), if_pos (by omega)]
  unfold tableTarget
  rw [if_pos (by omega)]
  have : (0x400 + 8 * c.toNat - 0x400) / 8 = c.toNat := by omega
  rw [this]; simp

/-- Entry c's LEN and VALID word in the map of R65. -/
theorem targetOf_ctMeta (c : Byte) : targetOf (0x404 + 8 * c.toNat) = .ctMeta c := by
  have := c.isLt
  unfold targetOf
  rw [if_neg (by omega), if_pos (by omega)]
  unfold tableTarget
  rw [if_neg (by omega)]
  have : (0x404 + 8 * c.toNat - 0x400) / 8 = c.toNat := by omega
  rw [this]; simp

/-- Word k of the SYM_BUF window in the map of R65. -/
theorem targetOf_symWindow (k : Nat) (h : k < 16384) : targetOf (0x10000 + 4 * k) = .symWindow k := by
  unfold targetOf
  rw [if_neg (by omega), if_neg (by omega), if_neg (by omega), if_pos (by omega)]
  have : (0x10000 + 4 * k - 0x10000) / 4 = k := by omega
  rw [this]

/-- Word k of the BYTE_BUF window in the map of R65. -/
theorem targetOf_byteWindow (k : Nat) (h : k < 16384) : targetOf (0x20000 + 4 * k) = .byteWindow k := by
  unfold targetOf
  rw [if_neg (by omega), if_neg (by omega), if_neg (by omega), if_neg (by omega), if_pos (by omega)]
  have : (0x20000 + 4 * k - 0x20000) / 4 = k := by omega
  rw [this]

/-- What a window write leaves at each address of its buffer. -/
theorem read?_writeWindow (d k : Nat) (m : Memory) (v : Word) (i : Nat) (hk : 4 * k < d) :
    (writeWindow d m k v).read? i =
      if 4 * k ≤ i ∧ i < 4 * k + 4 then some (lane v (i - 4 * k)) else m.read? i := by
  rw [writeWindow, if_pos hk, Memory.read?_writeBytes]
  simp only [List.length_cons, List.length_nil]
  split
  · rename_i h
    obtain ⟨j, rfl⟩ := Nat.exists_eq_add_of_le h.1
    have hj : j < 4 := by omega
    simp
    match j, hj with
    | 0, _ | 1, _ | 2, _ | 3, _ => rfl
  · rfl

end Sys2Proof.Machine
end

