-- ==== Sys2Proof/Tests/Slice0.lean ====
section
/-! SUPPORT. Small tests, their expected values taken from 95_test_vectors.md, and a witness for the hypotheses of each
obligation. -/

namespace Sys2Proof.Tests

open Sys2Proof.Machine

set_option Elab.async false

/-! ### Ill-formed terms -/

theorem test_ill_formed_word_reserved_bits : wellFormedWord 0x00000011#32 = false := by decide
theorem test_ill_formed_word_reserved_op : wellFormedWord 0x00000005#32 = false := by decide
theorem test_ill_formed_code_empty : wellFormedCode [] = false := by decide
theorem test_ill_formed_code_too_long : wellFormedCode (List.replicate 33 true) = false := by decide
theorem test_ill_formed_offset_misaligned : wellFormedOffset 0x006 = false := by decide
theorem test_ill_formed_offset_outside : wellFormedOffset 0x40000 = false := by decide
theorem test_ill_formed_params :
    ¬ (Params.mk 6 8 0).Legal ∧ ¬ (Params.mk 0 8 0).Legal ∧ ¬ (Params.mk 65540 8 0).Legal ∧
    ¬ (Params.mk 16 6 0).Legal ∧ ¬ (Params.mk 16 0 0).Legal ∧ ¬ (Params.mk 16 65540 0).Legal ∧
    ¬ (Params.mk 16 8 4).Legal := by decide
theorem test_well_formed_terms :
    wellFormedWord 0x00000004#32 = true ∧ wellFormedCode (List.replicate 32 true) = true ∧
    wellFormedOffset 0x3FFFC = true ∧ (Params.mk 65536 65536 0x40000).Legal := by decide

/-! ### Words of R91 and R92, written out bit by bit: RSV in bits 31:4, OP in bits 3:0 -/

theorem test_decode_nop : decode (0b0000000000000000000000000000#28 ++ 0b0000#4) = .ok .nop := by decide
theorem test_decode_pack : decode (0b0000000000000000000000000000#28 ++ 0b0001#4) = .ok .pack := by decide
theorem test_decode_unpack : decode (0b0000000000000000000000000000#28 ++ 0b0010#4) = .ok .unpack := by decide
theorem test_decode_ct_clear : decode (0b0000000000000000000000000000#28 ++ 0b0011#4) = .ok .ctClear := by decide
theorem test_decode_sreset : decode (0b0000000000000000000000000000#28 ++ 0b0100#4) = .ok .sreset := by decide
theorem test_decode_reserved_op :
    decode (0b0000000000000000000000000000#28 ++ 0b1111#4) = .error (.reservedOp 15#4) := by decide
theorem test_decode_reserved_bits :
    decode (0b1000000000000000000000000000#28 ++ 0b0001#4) = .error (.reservedBits 0x8000000#28) := by decide
theorem test_decode_table_word :
    decodeTableWord 32 2 = some .unpack ∧ decodeTableWord 8 0x104 = some .sreset ∧ decodeTableWord 32 0x104 = none := by
  decide

/-! ### Helper states -/

/-- A valid entry `w`, `l` for symbol `c`. -/
def withCode (c : Byte) (w : Word) (l : BitVec 6) (s : State) : State :=
  { s with ct := ctSet s.ct c { code := some w, len := some l, valid := true } }

/-- The tables T1, T3, T5, T6 and T7 of 95_test_vectors.md, loaded after rst; T0 is `State.reset` itself. -/
def tab1 : State := withCode 0x61 0 1 (withCode 0x62 2 2 (withCode 0x63 3 2 State.reset))
def tab3 : State :=
  withCode 0x61 0 1 (withCode 0x62 2 2 (withCode 0x63 6 3 (withCode 0x78 0xFFFFFFFF 32 State.reset)))
def tab5 : State := withCode 0x61 0 1 (withCode 0x62 1 2 State.reset)
def tab6 : State := withCode 0x61 0 1 (withCode 0x62 0 1 State.reset)
def tab7 : State := withCode 0x61 0 1 State.reset

/-- A memory that holds these bytes from 0. -/
def bytesFrom0 (l : List Byte) : Memory := l.zipIdx.map fun x => (x.2, x.1)

/-- `s` with `text` in SYM_BUF and its length in SYM_COUNT. -/
def withText (text : List Byte) (s : State) : State :=
  { s with symBuf := bytesFrom0 text, symCount := BitVec.ofNat 32 text.length }

/-- `s` with a stream in BYTE_BUF and its length in BYTE_COUNT. -/
def withStream (bytes : List Byte) (s : State) : State :=
  { s with byteBuf := bytesFrom0 bytes, byteCount := BitVec.ofNat 32 bytes.length }

/-- `s` with other depths. -/
def withDepths (sym byte : Nat) (s : State) : State :=
  { s with params := { symDepth := sym, byteDepth := byte, blockBase := 0x40000 } }

/-- The state an outcome leads to; the reset state where it stops. -/
def stateAfter (o : Host.Outcome State Fault Refusal) : State :=
  match o with
  | .next t => t
  | .fault _ => State.reset
  | .refused _ => State.reset

/-- "aaabbc". -/
def text6 : List Byte := [0x61, 0x61, 0x61, 0x62, 0x62, 0x63]

/-- A short stream over T7: "aa". -/
def shortStream : State := withStream [0x06, 0x00] tab7

/-- "aaabbc" before PACK over T1 (V-P1), and its stream before UNPACK (V-U1). -/
def beforePack : State := withText text6 tab1
def beforeUnpack : State := withStream [0x07, 0x15, 0x80] tab1

/-- The end state columns of 95_test_vectors.md for PACK: ERR, ERR_INFO, BYTE_BUF, BYTE_COUNT, RES_PAD, RES_NBITS. -/
def packEnd (s : State) : BitVec 4 × Word × List Byte × Word × Byte × Word :=
  (s.status.err, s.errInfo, s.byteBuf.map (·.2), s.byteCount, s.resPad, s.resNbits)

/-- The same for UNPACK. -/
def unpackEnd (s : State) : BitVec 4 × Word × List Byte × Word × Byte × Word :=
  (s.status.err, s.errInfo, s.symBuf.map (·.2), s.symCount, s.resPad, s.resNbits)

/-- The first step after `word` is placed in `s`. -/
def firstStep (word : Nat) (s : State) : State := stateAfter (step (s.withFetchWord 32 word))

/-! ### One step of each command -/

/-- V-P1. -/
theorem test_pack_natural :
    packEnd (firstStep 1 beforePack) = (0#4, 0#32, [0x07, 0x15, 0x80], 3#32, 7#8, 9#32) := by decide +kernel
/-- V-P5: reference padding of an aligned stream. -/
theorem test_pack_reference :
    packEnd (firstStep 1 { withText (List.replicate 8 0x61) tab7 with config := { padmode := true, ie := false } })
      = (0#4, 0#32, [0x08, 0x00, 0x00], 3#32, 8#8, 8#32) := by decide +kernel
/-- V-P12: a 32-bit code across five bytes. -/
theorem test_pack_long_code :
    packEnd (firstStep 1 (withText [0x61, 0x62, 0x63, 0x78] tab3))
      = (0#4, 0#32, [0x02, 0x5B, 0xFF, 0xFF, 0xFF, 0xFC], 6#32, 2#8, 38#32) := by decide +kernel
/-- V-P16. -/
theorem test_pack_missing_code :
    packEnd (firstStep 1 (withText [0x61, 0x62, 0x64] tab1)) = (1#4, 0x00640002#32, [], 0#32, 0#8, 0#32) := by
  decide +kernel
/-- V-P14: the stream would need nine bytes. -/
theorem test_pack_overflow :
    packEnd (firstStep 1 (withText ([0x78] ++ List.replicate 8 0x63 ++ [0x61]) tab3))
      = (4#4, 9#32, [], 0#32, 0#8, 0#32) := by decide +kernel
/-- V-U1. -/
theorem test_unpack_text : unpackEnd (firstStep 2 beforeUnpack) = (0#4, 0#32, text6, 6#32, 7#8, 9#32) := by
  decide +kernel
/-- V-U10: T5 is not prefix-free; the shortest match wins and its rest matches nothing. -/
theorem test_unpack_not_prefix_free :
    unpackEnd (firstStep 2 (withStream [0x06, 0x40] tab5)) = (3#4, 1#32, [], 0#32, 0#8, 0#32) := by decide +kernel
/-- V-U11: of two equal codes the least symbol wins. -/
theorem test_unpack_least_symbol :
    unpackEnd (firstStep 2 (withStream [0x07, 0x00] tab6)) = (0#4, 0#32, [0x61], 1#32, 7#8, 1#32) := by decide +kernel
/-- V-U16. -/
theorem test_unpack_overflow :
    unpackEnd (firstStep 2 (withStream [0, 0, 0, 0] tab1)) = (4#4, 24#32, [], 0#32, 0#8, 0#32) := by decide +kernel
/-- V-U18: the bad tail goes before the overflow. -/
theorem test_unpack_tail_before_overflow :
    unpackEnd (firstStep 2 (withStream [0, 0, 0, 0, 1] tab1)) = (3#4, 31#32, [], 0#32, 0#8, 0#32) := by decide +kernel
/-- V-CTL1. -/
theorem test_nop :
    let t := firstStep 0 { State.reset with
      errInfo := 0x00020005#32, status := { busy := false, done := true, ovr := false, err := 5#4 } }
    statusWord t.status = 2#32 ∧ t.errInfo = 0#32 := by decide +kernel
/-- V-CTL2. -/
theorem test_ct_clear :
    let t := firstStep 3 tab1
    readTarget (.ctCode 0x63) t = 0#32 ∧ readTarget (.ctMeta 0x63) t = 0#32 ∧ statusWord t.status = 2#32 := by
  decide +kernel
/-- V-CTL3. -/
theorem test_sreset :
    let t := firstStep 4 { beforePack with
      config := { padmode := true, ie := true }, status := { busy := false, done := true, ovr := true, err := 0#4 } }
    statusWord t.status = 0#32 ∧ readTarget (.ctMeta 0x61) t = 1#32 ∧ readTarget (.ctCode 0x61) t = 0#32 ∧
    t.symBuf = beforePack.symBuf ∧ irqOut t = false := by decide +kernel
/-- V-CTL8. -/
theorem test_illegal_word :
    let t := firstStep 0x80000001 beforePack
    statusWord t.status = 0x62#32 ∧ t.errInfo = 0x80000001#32 ∧ t.byteBuf = [] := by decide +kernel
/-- V-REG6 and V-REG7: LEN 33 cannot be valid, LEN 32 can. -/
theorem test_ct_meta_write :
    (busRead .w32 0x70C (busWrite .w32 0x70C 0x80000021#32 State.reset).1).2 = .data 0x00000021#32 ∧
    (busRead .w32 0x70C (busWrite .w32 0x70C 0x80000020#32 State.reset).1).2 = .data 0x80000020#32 := by
  decide +kernel
/-- V-REG10: lanes. -/
theorem test_window_lanes :
    (busWrite .w32 0x10000 0x62616161#32 State.reset).1.symBuf = [(0, 0x61), (1, 0x61), (2, 0x61), (3, 0x62)] := by
  decide +kernel
/-- V-REG16: only OVR cleared. -/
theorem test_status_acknowledge :
    statusWord (statusW1c 4#32 { busy := false, done := true, ovr := true, err := 3#4 }) = 0x32#32 := by decide
/-- Program P1, its first line: the words of `ldct 0x61, "0"` and of `ldct 0x62, "10"`. -/
theorem test_ldct_words :
    ldct Params.example 0x61 [false] = [.write .w32 0x708 0#32, .write .w32 0x70C 0x80000001#32] ∧
    ldct Params.example 0x62 [true, false] = [.write .w32 0x710 2#32, .write .w32 0x714 0x80000002#32] := by decide
/-- R111: `ldsym "aaabbc"` as in program P1. -/
theorem test_ldsym_words :
    ldsym Params.example text6 =
      [.write .w32 0x10000 0x62616161#32, .write .w32 0x10004 0x00006362#32, .write .w32 0x010 6#32] := by decide

/-! ### A check of the invariant, for the witnesses -/

/-- The conditions of `HbpInv`, as a check that can be evaluated. -/
def checkInv (s : State) : Bool :=
  decide s.params.Legal && (s.status.busy == s.pending.isSome) && (!s.status.busy || !s.status.done) &&
  (s.status.done || s.status.err == 0#4) && decide (s.status.err.toNat ≤ 6) &&
  (!s.status.done || s.status.err != 0#4 || s.errInfo == 0#32) &&
  (s.ct.toList.all fun e => !e.valid ||
    (match e.len with
    | some l => decide (1 ≤ l.toNat) && decide (l.toNat ≤ 32)
    | none => false)) &&
  decide s.symBuf.wf && (s.symBuf.all fun x => decide (x.1 < s.params.symDepth)) &&
  decide s.byteBuf.wf && (s.byteBuf.all fun x => decide (x.1 < s.params.byteDepth))

theorem inv_of_check (s : State) (h : checkInv s = true) : HbpInv s := by
  simp only [checkInv, Bool.and_eq_true, List.all_eq_true, decide_eq_true_eq] at h
  obtain ⟨⟨⟨⟨⟨⟨⟨⟨⟨⟨h1, h2⟩, h3⟩, h4⟩, h5⟩, h6⟩, h7⟩, h8⟩, h9⟩, h10⟩, h11⟩ := h
  refine ⟨h1, ?_, ?_, ?_, h5, ?_, ?_, h8, h9, h10, h11⟩
  · cases hb : s.status.busy <;> cases hp : s.pending <;> simp_all
  · intro hb; simpa [hb] using h3
  · intro hd; simpa [hd] using h4
  · intro hd he; simpa [hd, he] using h6
  · intro c hc
    have hm : ctGet s.ct c ∈ s.ct.toList := Vector.mem_toList_iff.mpr (Vector.getElem_mem _)
    have hv : (ctGet s.ct c).valid = true := hc
    have := h7 _ hm
    rw [hv] at this
    cases hl : (ctGet s.ct c).len with
    | none => simp [hl] at this
    | some l => exact ⟨l, rfl, by simpa [hl] using this⟩

/-! ### Witnesses: a state and operands that meet the hypotheses of each obligation

An obligation that is not named here has no hypothesis. -/

/-- A command always answers a next state, so `stateAfter` names it. -/
theorem exec_stateAfter (i : Instr) (s : State) : exec i s = .next (stateAfter (exec i s)) := by
  cases i with
  | nop => rfl
  | pack => rcases execPack_cases s with ⟨_, _, h⟩ | ⟨_, _, h⟩ <;> rw [h] <;> rfl
  | unpack => rcases execUnpack_cases s with ⟨_, _, h⟩ | ⟨_, _, h⟩ <;> rw [h] <;> rfl
  | ctClear => rfl
  | sreset => rfl

/-- PACK accepted and not yet run, the engine next; `u` with the host next. -/
def running : State := accept 1 beforePack
def runningHostNext (op : HostOp) : State := { running with prog := [op], sched := [.host] }

theorem witness_IllegalWordCompletesWithError :
    (0x11 : Word).toNat / 16 ≠ 0 ∧ 5 ≤ (0x5 : Word).toNat % 16 ∧ State.reset.status.busy = false ∧
    (let s := accept 0x11 State.reset; EngineNext s ∧ s.status.busy = true ∧ s.pending = some 0x11) ∧
    (let s := accept 0x5 State.reset; EngineNext s ∧ s.status.busy = true ∧ s.pending = some 0x5) :=
  ⟨by decide, by decide, rfl, ⟨.inl rfl, rfl, rfl⟩, ⟨.inl rfl, rfl, rfl⟩⟩

theorem witness_CodeDigitsMostSignificantFirst :
    0 < (ctLen tab3 0x61).toNat ∧ 0 < (ctLen tab3 0x78).toNat ∧ 31 < (ctLen tab3 0x78).toNat := by decide +kernel

theorem witness_LoadedCodeReadsBack :
    (wellFormedCode [false] = true ∧ wellFormedCode (List.replicate 32 true) = true) ∧
    State.reset.status.busy = false ∧
    (let s := { State.reset with prog := ldct Params.example 0x61 [false] ++ [] }
     s.status.busy = false ∧ s.prog = ldct s.params 0x61 [false] ++ []) ∧
    (let s := { State.reset with prog := ldct Params.example 0xFF (List.replicate 32 true) ++ [HostOp.wait] }
     s.status.busy = false ∧ s.prog = ldct s.params 0xFF (List.replicate 32 true) ++ [HostOp.wait]) :=
  ⟨by decide, rfl, ⟨rfl, rfl⟩, ⟨rfl, rfl⟩⟩

theorem witness_LoadedTextReadsBack :
    (let s := { State.reset with prog := ldsym Params.example [] ++ [] }
     s.params.Legal ∧ ([] : List Byte).length ≤ s.params.symDepth ∧ s.status.busy = false ∧
     s.prog = ldsym s.params [] ++ []) ∧
    (let text := text6 ++ text6 ++ [0x61, 0x61, 0x61, 0x61]
     let s := { State.reset with prog := ldsym Params.example text ++ [HostOp.wait] }
     s.params.Legal ∧ text.length = s.params.symDepth ∧ s.status.busy = false ∧
     s.prog = ldsym s.params text ++ [HostOp.wait]) :=
  ⟨⟨by decide, by decide, rfl, rfl⟩, ⟨by decide, by decide, rfl, rfl⟩⟩

theorem witness_StreamBitsMostSignificantFirst :
    (List.replicate 16 true).length = 8 * 2 ∧ 0 < 8 * 2 ∧ 15 < 8 * 2 ∧ 0 < 8 * (2 - 1) ∧ 7 < 8 * (2 - 1) := by decide

theorem witness_ResidualDropsThePadding : 7 < 8 * (3 - 1) - 8 ∧ 0 < 8 * (3 - 1) - 0 ∧ 8 * (2 - 1) ≤ 8 ∧ 8 * (1 - 1) ≤ 0 := by
  decide

theorem witness_StepRunsTheDecodedCommand :
    ∀ i : Instr, let s := accept (encode i) State.reset
      EngineNext s ∧ s.status.busy = true ∧ s.pending = some (encode i) ∧ decode (encode i) = .ok i := by
  intro i
  exact ⟨.inl rfl, rfl, rfl, by cases i <;> rfl⟩

theorem witness_StepTakesTheScheduledTurn :
    HostNext State.reset ∧ HostNext (runningHostNext HostOp.wait) ∧
    (let s := { State.reset with sched := [.engine] }
     s.sched.head? = some .engine ∧ s.status.busy = false) ∧
    ({ running with sched := [.rst] } : State).sched.head? = some .rst :=
  ⟨.inl ⟨rfl, rfl⟩, .inr rfl, ⟨rfl, rfl⟩, rfl⟩

theorem witness_RstGivesTheResetState : ({ running with sched := [.rst, .host] } : State).sched = .rst :: [.host] := rfl

theorem witness_ResetValues :
    (let t := hardReset running; t = hardReset running) ∧
    (let t := softReset running; exec .sreset running = .next t) := ⟨rfl, rfl⟩

theorem witness_HostOperations :
    (let s := { withDepths 16 8 State.reset with prog := [.read .w32 0x40000] }
     s.prog = .read .w32 0x40000 :: [] ∧ 0 < 0x40000 ∧ 0x40000 = s.params.blockBase + 0) ∧
    (let s := { withDepths 16 8 State.reset with prog := [.read .w8 0x7FFFF] }
     s.prog = .read .w8 0x7FFFF :: [] ∧ 0x3FFFF < 0x40000 ∧ 0x7FFFF = s.params.blockBase + 0x3FFFF) ∧
    (let s := { withDepths 16 8 State.reset with prog := [.write .w32 0x40004 1] }
     s.prog = .write .w32 0x40004 1 :: [] ∧ 4 < 0x40000 ∧ 0x40004 = s.params.blockBase + 4) ∧
    (let s := { withDepths 16 8 State.reset with prog := [.read .w32 0x3FFFF] }
     s.prog = .read .w32 0x3FFFF :: [] ∧ 0x3FFFF < s.params.blockBase) ∧
    (let s := { withDepths 16 8 State.reset with prog := [.write .w32 0x80000 1] }
     s.prog = .write .w32 0x80000 1 :: [] ∧ s.params.blockBase + 0x40000 ≤ 0x80000) ∧
    (runningHostNext HostOp.wait).prog = HostOp.wait :: [] ∧ State.reset.prog = [] :=
  ⟨⟨rfl, by decide, rfl⟩, ⟨rfl, by decide, rfl⟩, ⟨rfl, by decide, rfl⟩, ⟨rfl, by decide⟩, ⟨rfl, by decide⟩, rfl, rfl⟩

theorem witness_CmdWriteIsAcceptedWhenIdle : State.reset.status.busy = false ∧ running.status.busy = true := ⟨rfl, rfl⟩

theorem witness_BusyWindowWrites :
    running.status.busy = true ∧ (∀ a ∈ [0x000, 0x004, 0x008, 0x02C, 0x030, 0x3FC, 0x400, 0xBFC, 0xC00, 0x10000, 0x2FFFC,
      0x30000, 0x3FFFC], a % 4 = 0 ∧ a < 0x40000) ∧
    targetOf 0x030 = .reserved ∧ targetOf 0x3FC = .reserved ∧ targetOf 0xC00 = .reserved ∧
    targetOf 0x30000 = .reserved ∧ targetOf 0x02C ≠ .reserved ∧ targetOf 0x400 ≠ .reserved ∧
    targetOf 0xBFC ≠ .reserved ∧ targetOf 0x10000 ≠ .reserved ∧ targetOf 0x2FFFC ≠ .reserved := by
  decide +kernel

theorem witness_StatusReadsAndAcknowledges :
    (2 : Word).getLsbD 1 = true ∧ (4 : Word).getLsbD 1 = false ∧ (4 : Word).getLsbD 2 = true ∧
    (2 : Word).getLsbD 2 = false := by decide

theorem witness_DoneRisesOnlyAtCompletion :
    let s := accept 0 State.reset
    let t := complete 0 0 s
    step s = .next t ∧ s.status.done = false ∧ t.status.done = true := ⟨rfl, rfl, rfl⟩

theorem witness_OvrRisesOnlyByALostWrite :
    let s := runningHostNext (.write .w32 0x010 5)
    let t := hostTurn (passTurn s)
    step s = .next t ∧ s.status.ovr = false ∧ t.status.ovr = true := by
  exact ⟨rfl, rfl, by decide +kernel⟩

theorem witness_OnlyACmdWriteStartsACommand :
    let s := { State.reset with prog := [.write .w32 0x004 1] }
    let t := hostTurn (passTurn s)
    step s = .next t ∧ s.status.busy = false ∧ t.status.busy = true := by
  exact ⟨rfl, rfl, by decide +kernel⟩

theorem witness_IrqIsDoneAndEnabled :
    (∃ t, exec .nop running = .next t ∧ Instr.nop ≠ .sreset) ∧ ∃ t, exec .sreset running = .next t :=
  ⟨⟨_, rfl, by decide⟩, ⟨_, rfl⟩⟩

theorem witness_PackWritesTheStream :
    (let s := beforePack
     s.params.Legal ∧ s.symCount.toNat ≤ s.params.symDepth ∧
     (∀ i < s.symCount.toNat, ctValid s (symRead s i) = true) ∧
     1 + ((packCodeBits s).length + padLen (packCodeBits s).length s.config.padmode) / 8 ≤ s.params.byteDepth) ∧
    (let s := { State.reset with config := { padmode := true, ie := false } }
     s.params.Legal ∧ s.symCount.toNat ≤ s.params.symDepth ∧
     (∀ i < s.symCount.toNat, ctValid s (symRead s i) = true) ∧
     1 + ((packCodeBits s).length + padLen (packCodeBits s).length s.config.padmode) / 8 ≤ s.params.byteDepth) ∧
    (let s := withText ([0x78] ++ List.replicate 8 0x63) tab3
     s.params.Legal ∧ s.symCount.toNat ≤ s.params.symDepth ∧
     (∀ i < s.symCount.toNat, ctValid s (symRead s i) = true) ∧
     1 + ((packCodeBits s).length + padLen (packCodeBits s).length s.config.padmode) / 8 = s.params.byteDepth) := by
  decide +kernel

theorem witness_PackChecksTheCountFirst :
    (let s := { tab1 with symCount := 17 }; s.params.symDepth < s.symCount.toNat) ∧
    (let s := { tab1 with symCount := 0xFFFFFFFF }; s.params.symDepth < s.symCount.toNat) := by decide +kernel

theorem witness_PackReportsTheFirstMissingCode :
    (let s := withText [0x61, 0x62, 0x64] tab1
     s.params.Legal ∧ s.symCount.toNat ≤ s.params.symDepth ∧ 2 < s.symCount.toNat ∧
     ctValid s (symRead s 2) = false ∧ ∀ j < 2, ctValid s (symRead s j) = true) ∧
    (let s := withText ([0x78, 0x78, 0x78] ++ List.replicate 12 0x61 ++ [0x64]) tab3
     s.params.Legal ∧ s.symCount.toNat ≤ s.params.symDepth ∧ 15 < s.symCount.toNat ∧
     ctValid s (symRead s 15) = false ∧ ∀ j < 15, ctValid s (symRead s j) = true) := by decide +kernel

theorem witness_PackReportsOverflow :
    let s := withText ([0x78] ++ List.replicate 8 0x63 ++ [0x61]) tab3
    s.params.Legal ∧ s.symCount.toNat ≤ s.params.symDepth ∧
    (∀ i < s.symCount.toNat, ctValid s (symRead s i) = true) ∧
    s.params.byteDepth < 1 + ((packCodeBits s).length + padLen (packCodeBits s).length s.config.padmode) / 8 := by
  decide +kernel

/-- The two clauses of `PackFrame` about BYTE_BUF: an error, and a byte beyond the stream. -/
theorem witness_PackFrame :
    (stateAfter (exec .pack (withText [0x64] tab1))).status.err ≠ 0#4 ∧ tab1.params.Legal ∧
    (stateAfter (exec .pack beforePack)).byteCount.toNat ≤ 3 := by decide +kernel

theorem witness_PackArithmetic :
    (let t := stateAfter (exec .pack beforePack)
     HbpInv beforePack ∧ exec .pack beforePack = .next t ∧ t.status.err = 0#4 ∧ beforePack.config.padmode = false) ∧
    (let s := { withText (List.replicate 8 0x61) tab7 with config := { padmode := true, ie := true } }
     let t := stateAfter (exec .pack s)
     HbpInv s ∧ exec .pack s = .next t ∧ t.status.err = 0#4 ∧ s.config.padmode = true ∧
     t.resNbits.toNat ≤ 15 ∧ 15 < t.resNbits.toNat + t.resPad.toNat) :=
  ⟨⟨inv_of_check _ (by decide +kernel), exec_stateAfter _ _, by decide +kernel, rfl⟩,
   ⟨inv_of_check _ (by decide +kernel), exec_stateAfter _ _, by decide +kernel, rfl, by decide +kernel⟩⟩

theorem sameEntry_of_eq (s t : State) (h1 : s.ct = t.ct) (h2 : s.era = t.era) (c : Byte) : SameEntry s t c := by
  refine ⟨by simp [ctValid, h1], fun _ => ⟨by simp [ctLen, h1, h2], fun j _ => by simp [ctCode, h1, h2]⟩⟩

theorem witness_PackReadsOnlyItsOperands :
    let s := beforePack
    let u := { beforePack with byteBuf := bytesFrom0 [1, 2, 3], byteCount := 9, errInfo := 5, resPad := 1 }
    let t := stateAfter (exec .pack s)
    let v := stateAfter (exec .pack u)
    s.params.symDepth = u.params.symDepth ∧ s.params.byteDepth = u.params.byteDepth ∧
    s.config.padmode = u.config.padmode ∧ s.symCount = u.symCount ∧
    (∀ i < s.symCount.toNat, symRead s i = symRead u i ∧ SameEntry s u (symRead s i)) ∧
    exec .pack s = .next t ∧ exec .pack u = .next v ∧ t.status.err = 0#4 ∧ 0 < t.byteCount.toNat :=
  ⟨rfl, rfl, rfl, rfl, fun _ _ => ⟨rfl, sameEntry_of_eq _ _ rfl rfl _⟩, exec_stateAfter _ _, exec_stateAfter _ _,
   by decide +kernel, by decide +kernel⟩

theorem witness_UnpackChecksTheCount :
    (let s := { tab1 with byteCount := 9 }; s.params.byteDepth < s.byteCount.toNat) ∧ tab1.byteCount = 0#32 := by
  decide +kernel

theorem noMatch_nil (s : State) : NoMatch s [] := fun j h1 h2 => by
  simp at h2
  omega

/-- A derivation of a greedy decomposition into one-bit codes. -/
theorem greedy_zeros (s : State) (c : Byte) (n : Nat) (tail : Bits) (hm : matchCode s [false] = some c)
    (ht : NoMatch s tail) : Greedy s (List.replicate n false ++ tail) (List.replicate n c) tail := by
  induction n with
  | zero => exact .rest tail ht
  | succ n ih =>
    refine .emit _ 1 c _ _ ⟨by omega, by simp [List.replicate_succ], by simpa [List.replicate_succ] using hm, ?_⟩ ?_
    · intro j h1 h2
      omega
    · simpa [List.replicate_succ] using ih

theorem noMatch_one (s : State) (h : matchCode s [true] = none) : NoMatch s [true] := by
  intro j h1 h2
  have : j = 1 := by
    simp at h2
    omega
  subst this
  exact h

/-- All three outcomes: symbols that fit (V-U3), too many of them (V-U16), and a tail (V-U7). -/
theorem witness_UnpackFollowsTheGreedyScan :
    (let s := withStream [0x00, 0x00] tab1
     s.params.Legal ∧ 1 ≤ s.byteCount.toNat ∧ s.byteCount.toNat ≤ s.params.byteDepth ∧
     Greedy s (residualOf s) (List.replicate 8 0x61) [] ∧ (List.replicate 8 0x61).length ≤ s.params.symDepth) ∧
    (let s := withStream [0x00, 0x00, 0x00, 0x00] tab1
     s.params.Legal ∧ 1 ≤ s.byteCount.toNat ∧ s.byteCount.toNat ≤ s.params.byteDepth ∧
     Greedy s (residualOf s) (List.replicate 24 0x61) [] ∧ s.params.symDepth < (List.replicate 24 0x61).length) ∧
    (let s := withStream [0x00, 0x01] tab1
     s.params.Legal ∧ 1 ≤ s.byteCount.toNat ∧ s.byteCount.toNat ≤ s.params.byteDepth ∧
     Greedy s (residualOf s) (List.replicate 7 0x61) [true]) := by
  refine ⟨⟨by decide, by decide, by decide, ?_, by decide⟩, ⟨by decide, by decide, by decide, ?_, by decide⟩,
    ⟨by decide, by decide, by decide, ?_⟩⟩
  · have h : residualOf (withStream [0x00, 0x00] tab1) = List.replicate 8 false ++ [] := by decide +kernel
    exact h ▸ greedy_zeros _ _ 8 _ (by decide +kernel) (noMatch_nil _)
  · have h : residualOf (withStream [0x00, 0x00, 0x00, 0x00] tab1) = List.replicate 24 false ++ [] := by decide +kernel
    exact h ▸ greedy_zeros _ _ 24 _ (by decide +kernel) (noMatch_nil _)
  · have h : residualOf (withStream [0x00, 0x01] tab1) = List.replicate 7 false ++ [true] := by decide +kernel
    exact h ▸ greedy_zeros _ _ 7 _ (by decide +kernel) (noMatch_one _ (by decide +kernel))

theorem witness_GreedyDecompositionIsUnique :
    Greedy tab1 (List.replicate 3 false ++ []) (List.replicate 3 0x61) [] :=
  greedy_zeros _ _ 3 _ (by decide +kernel) (noMatch_nil _)

theorem witness_UnpackOfHeaderDroppingEveryBit :
    (let s := withStream [0x09, 0xAB] tab1
     1 ≤ s.byteCount.toNat ∧ s.byteCount.toNat ≤ s.params.byteDepth ∧
     8 * (s.byteCount.toNat - 1) ≤ (byteRead s 0).toNat) ∧
    (let s := withStream [0xFF] tab1
     1 ≤ s.byteCount.toNat ∧ s.byteCount.toNat ≤ s.params.byteDepth ∧
     8 * (s.byteCount.toNat - 1) ≤ (byteRead s 0).toNat) := by decide +kernel

theorem witness_UnpackFrame :
    (stateAfter (exec .unpack tab1)).status.err ≠ 0#4 ∧ tab1.params.Legal ∧
    (stateAfter (exec .unpack shortStream)).symCount.toNat ≤ 2 := by decide +kernel

theorem witness_LongAccumulatorNeverMatches : HbpInv tab3 ∧ 32 < (List.replicate 33 true).length :=
  ⟨inv_of_check _ (by decide +kernel), by decide⟩

theorem witness_UnpackReadsOnlyItsOperands :
    let s := shortStream
    let u := { shortStream with symBuf := bytesFrom0 [1, 2, 3], symCount := 9, config := { padmode := true, ie := true } }
    let t := stateAfter (exec .unpack s)
    let v := stateAfter (exec .unpack u)
    s.params.symDepth = u.params.symDepth ∧ s.params.byteDepth = u.params.byteDepth ∧ s.byteCount = u.byteCount ∧
    (∀ j < s.byteCount.toNat, byteRead s j = byteRead u j) ∧ (∀ c, SameEntry s u c) ∧
    exec .unpack s = .next t ∧ exec .unpack u = .next v ∧ t.status.err = 0#4 ∧ 0 < t.symCount.toNat :=
  ⟨rfl, rfl, rfl, fun _ _ => rfl, sameEntry_of_eq _ _ rfl rfl, exec_stateAfter _ _, exec_stateAfter _ _,
   by decide +kernel, by decide +kernel⟩

theorem valid_tab1 (c : Byte) (h : ctValid tab1 c = true) : c = 0x61 ∨ c = 0x62 ∨ c = 0x63 := by
  by_contra hc
  simp only [not_or] at hc
  have he : ctGet tab1.ct c = ctGet State.reset.ct c := by
    simp only [tab1, withCode]
    rw [ctGet_ctSet_other _ _ _ _ hc.1, ctGet_ctSet_other _ _ _ _ hc.2.1, ctGet_ctSet_other _ _ _ _ hc.2.2]
  rw [ctValid, he, show State.reset.ct = Vector.replicate Config.nsym CtEntry.afterRst from rfl, ctGet_afterRst] at h
  cases h

theorem codes_tab1 : codeBits tab1 0x61 = [false] ∧ codeBits tab1 0x62 = [true, false] ∧
    codeBits tab1 0x63 = [true, true] := by decide +kernel

theorem prefixFree_tab1 (s : State) (h1 : s.ct = tab1.ct) (h2 : s.era = tab1.era) : PrefixFree s := by
  have hv : ∀ c, ctValid s c = ctValid tab1 c := fun c => by simp [ctValid, h1]
  have hb : ∀ c, codeBits s c = codeBits tab1 c := fun c => by simp [codeBits, ctLen, ctCode, h1, h2]
  intro c d hcd hc hd
  rw [hb, hb]
  rw [hv] at hc hd
  obtain ⟨ha, hb, hc'⟩ := codes_tab1
  rcases valid_tab1 c hc with rfl | rfl | rfl <;> rcases valid_tab1 d hd with rfl | rfl | rfl <;>
    first | exact absurd rfl hcd | (simp only [ha, hb, hc']; decide)

theorem witness_UnpackInvertsPack :
    let s := beforePack
    let t := stateAfter (exec .pack s)
    let u := { t with symBuf := [], symCount := 0 }
    HbpInv s ∧ PrefixFree s ∧ exec .pack s = .next t ∧ t.status.err = 0#4 ∧ u.params = t.params ∧ u.ct = t.ct ∧
    u.era = t.era ∧ u.byteCount = t.byteCount ∧ (∀ j < t.byteCount.toNat, u.byteBuf.read? j = t.byteBuf.read? j) :=
  ⟨inv_of_check _ (by decide +kernel), prefixFree_tab1 _ rfl rfl, exec_stateAfter _ _, by decide +kernel, rfl, rfl, rfl, rfl,
   fun _ _ => rfl⟩

/-- Both clauses: V-U15, whose tail "1" is a proper prefix of a code, and V-U14, which still decomposes. -/
theorem witness_TruncatedCodeIsDetected :
    (let s := withStream [0x08, 0x15, 0x80] tab1
     let syms : List Byte := [0x61, 0x61, 0x61, 0x62, 0x62]
     HbpInv s ∧ PrefixFree s ∧ 1 ≤ s.byteCount.toNat ∧ s.byteCount.toNat ≤ s.params.byteDepth ∧
     (∀ c ∈ syms, ctValid s c = true) ∧ residualOf s = syms.flatMap (codeBits s) ++ [true] ∧
     ∃ c, ctValid s c = true ∧ [true] <+: codeBits s c ∧ [true] ≠ codeBits s c) ∧
    (let s := withStream [0x01, 0x15, 0x80] tab1
     let syms : List Byte := text6 ++ List.replicate 6 0x61
     HbpInv s ∧ PrefixFree s ∧ 1 ≤ s.byteCount.toNat ∧ s.byteCount.toNat ≤ s.params.byteDepth ∧
     (∀ c ∈ syms, ctValid s c = true) ∧ residualOf s = syms.flatMap (codeBits s) ++ [] ∧
     syms.length ≤ s.params.symDepth) :=
  ⟨⟨inv_of_check _ (by decide +kernel), prefixFree_tab1 _ rfl rfl, by decide, by decide, by decide +kernel,
    by decide +kernel, 0x63, by decide +kernel, by decide +kernel, by decide +kernel⟩,
   ⟨inv_of_check _ (by decide +kernel), prefixFree_tab1 _ rfl rfl, by decide, by decide, by decide +kernel,
    by decide +kernel, by decide⟩⟩

theorem invalid_reset (s : State) (h : s.ct = State.reset.ct) (c : Byte) : ctValid s c = false := by
  rw [ctValid, h]
  show (ctGet (Vector.replicate Config.nsym CtEntry.afterRst) c).valid = false
  rw [ctGet_afterRst]
  rfl

/-- Both clauses, and both branches of the second: a residual of 9 bits (V-U19) and an empty one. -/
theorem witness_EmptyTableOutcomes :
    (let s := withText [0x61] State.reset
     s.params.Legal ∧ (∀ c, ctValid s c = false) ∧ 0 < s.symCount.toNat ∧ s.symCount.toNat ≤ s.params.symDepth) ∧
    (let s := withStream [0x07, 0x15, 0x80] State.reset
     s.params.Legal ∧ (∀ c, ctValid s c = false) ∧ 1 ≤ s.byteCount.toNat ∧ s.byteCount.toNat ≤ s.params.byteDepth ∧
     residualLength s = 9) ∧
    (let s := withStream [0xFF] State.reset
     s.params.Legal ∧ (∀ c, ctValid s c = false) ∧ 1 ≤ s.byteCount.toNat ∧ s.byteCount.toNat ≤ s.params.byteDepth ∧
     residualLength s = 0) :=
  ⟨⟨by decide, invalid_reset _ rfl, by decide, by decide⟩,
   ⟨by decide, invalid_reset _ rfl, by decide, by decide, by decide +kernel⟩,
   ⟨by decide, invalid_reset _ rfl, by decide, by decide, by decide +kernel⟩⟩

theorem witness_ErrorReportsAreAllOrNothing :
    (let s := withText [0x64] tab1
     let t := stateAfter (exec .pack s)
     exec .pack s = .next t ∧ t.status.err ≠ 0#4) ∧
    (let t := stateAfter (exec .unpack tab1)
     exec .unpack tab1 = .next t ∧ t.status.err ≠ 0#4) ∧
    (let t := stateAfter (execIllegal 5 tab1)
     execIllegal 5 tab1 = .next t) :=
  ⟨⟨exec_stateAfter _ _, by decide +kernel⟩, ⟨exec_stateAfter _ _, by decide +kernel⟩, rfl⟩

theorem witness_OnlyTheirCommandWritesABuffer :
    (let t := stateAfter (exec .unpack shortStream)
     exec .unpack shortStream = .next t ∧ t.symBuf ≠ shortStream.symBuf) ∧
    (let t := stateAfter (exec .pack beforePack)
     exec .pack beforePack = .next t ∧ t.byteBuf ≠ beforePack.byteBuf) :=
  ⟨⟨exec_stateAfter _ _, by decide +kernel⟩, ⟨exec_stateAfter _ _, by decide +kernel⟩⟩

theorem witness_ReservedOffsetsAreInert :
    ∀ a ∈ [0x030, 0x3FC, 0xC00, 0xFFFC, 0x30000, 0x3FFFC], a % 4 = 0 ∧
      (0x030 ≤ a ∧ a ≤ 0x3FC ∨ 0xC00 ≤ a ∧ a ≤ 0xFFFC ∨ 0x30000 ≤ a ∧ a ≤ 0x3FFFC) := by decide

theorem witness_BadAccessGetsError : Width.w8 ≠ .w32 ∧ Width.burst ≠ .w32 ∧ 0x006 % 4 ≠ 0 := by decide

theorem witness_ReadsHaveNoSideEffects : (0 % 4 = 0 ∧ 0 < 0x40000) ∧ 0x3FFFC % 4 = 0 ∧ 0x3FFFC < 0x40000 := by decide

theorem witness_BusyReadsAreFresh :
    running.status.busy = true ∧ (∀ a ∈ [0x000, 0x010, 0x02C, 0x030, 0x400, 0x3FFFC], a % 4 = 0 ∧ a < 0x40000) ∧
    targetOf 0x030 = .reserved ∧ targetOf 0x010 ≠ .reserved := by decide +kernel

/-- The last word inside each depth, the first beyond it, and the last of a window. -/
theorem witness_BufferWindowLanes :
    State.reset.params.Legal ∧ State.reset.status.busy = false ∧
    (3 < 16384 ∧ 4 * 3 < State.reset.params.symDepth) ∧ (4 < 16384 ∧ State.reset.params.symDepth ≤ 4 * 4) ∧
    (1 < 16384 ∧ 4 * 1 < State.reset.params.byteDepth) ∧ (2 < 16384 ∧ State.reset.params.byteDepth ≤ 4 * 2) ∧
    16383 < 16384 ∧ (0 < 4 * 1 ∧ 4 * 1 + 4 ≤ 8) := by decide

theorem witness_CodeTableWrites : State.reset.status.busy = false ∧ (1 : Byte) ≠ 0 := by decide

theorem witness_ConfigAndCountWrites : tab1.status.busy = false := rfl

theorem witness_ReadOnlyRegisters : tab1.status.busy = false ∧ 0x020 ∈ [0x000, 0x018, 0x01C, 0x020, 0x024, 0x028, 0x02C] :=
  ⟨rfl, by decide⟩

theorem witness_HostCannotChangeARunningCommand :
    (runningHostNext (.write .w32 0x010 5)).status.busy = true ∧
    (hostTurn (runningHostNext (.write .w32 0x010 5))).received = [.okay] := by decide +kernel

theorem witness_EngineStepIsOrderIndependent : running.status.busy = true ∧ running.pending = some 1 := ⟨rfl, rfl⟩

theorem witness_EveryStepKeepsTheInvariant :
    HbpInv running ∧ (let t := stateAfter (step running); step running = .next t ∧ t.status.done = true) :=
  ⟨inv_of_check _ (by decide +kernel), exec_stateAfter .pack (passTurn running), by decide +kernel⟩

theorem witness_ResetMeetsTheInvariant : (Params.mk 65536 4 0xC0000).Legal := by decide

theorem witness_TheMachineNeverStops : HbpInv running := inv_of_check _ (by decide +kernel)

theorem witness_EveryRunningCommandEnds : HbpInv (runningHostNext .wait) ∧ (runningHostNext .wait).status.busy = true :=
  ⟨inv_of_check _ (by decide +kernel), rfl⟩

/-- A completed PACK, the host about to read BYTE_COUNT. -/
def completed : State := { tab1 with
  status := { busy := false, done := true, ovr := false, err := 0#4 }, prog := [.read .w32 0x014] }

/-- R220: BUSY = 0 alone does not end the window; a result read before the host has observed completion breaks the rule. -/
theorem test_hazard_unobserved_completion :
    safeTurn true completed = false ∧ safeTurn false completed = true := by decide
/-- R220: a STATUS read with BUSY = 0, or irq high, closes the window; a STATUS read with BUSY = 1 does not. -/
theorem test_hazard_observation :
    windowAfter true { completed with prog := [.read .w32 0x008] } completed = false ∧
    windowAfter true { completed with prog := [.wait] } completed = false ∧
    windowAfter true running { completed with config := { padmode := false, ie := true } } = false ∧
    windowAfter true running completed = true ∧
    windowAfter true (runningHostNext .wait) running = true := by decide +kernel

/-- The window opens; it is closed by rst, by irq, by both STATUS reads, and kept by a completion; and a safe run that
issues NOP, waits and reads a result. -/
theorem witness_HostsKeepingTheWindowLoseNoWrite :
    (let s := { State.reset with prog := [.write .w32 0x004 0] }
     HostNext s ∧ s.status.busy = false ∧ s.prog = .write .w32 (s.params.blockBase + 0x004) 0 :: []) ∧
    (let s := { running with sched := [.rst] }
     (∃ t, step s = .next t) ∧ inWindow true s = true ∧ nextTurn s = .rst) ∧
    (let s := { accept 0 State.reset with config := { padmode := false, ie := true } }
     ∃ t, step s = .next t ∧ inWindow true s = true ∧ irqOut t = true) ∧
    (let s := { completed with prog := [.wait] }
     (∃ t, step s = .next t) ∧ inWindow true s = true ∧ nextTurn s = .host ∧ s.status.busy = false ∧
     s.prog = .wait :: []) ∧
    (let s := { completed with prog := [.read .w32 0x008] }
     (∃ t, step s = .next t) ∧ inWindow true s = true ∧ nextTurn s = .host ∧ s.status.busy = false ∧
     s.prog = .read .w32 (s.params.blockBase + 0x008) :: []) ∧
    (let s := { State.reset with prog := [.write .w32 0x004 0, .wait, .read .w32 0x020] }
     safeRun 4 false s = true ∧ s.status.ovr = false ∧ ∃ t, Host.Core.run core 4 s = .next t) :=
  ⟨⟨.inl ⟨rfl, rfl⟩, rfl, rfl⟩, ⟨⟨_, rfl⟩, rfl, rfl⟩, ⟨_, rfl, rfl, rfl⟩, ⟨⟨_, rfl⟩, rfl, rfl, rfl, rfl⟩,
   ⟨⟨_, rfl⟩, rfl, rfl, rfl, rfl⟩, ⟨by decide +kernel, rfl, ⟨_, rfl⟩⟩⟩

end Sys2Proof.Tests
end

namespace Sys2Proof.Machine

/-- R9, `c_j = CODE[L-1-j]`, for any digit count and word: the form that LEN and CODE of an entry instantiate. -/
theorem codeDigits_getElem? (n : Nat) (w : Word) (j : Nat) (h : j < n) :
    (codeDigits n w)[j]? = some (w.getLsbD (n - 1 - j)) := by
  simp [codeDigits, h]

/-- Settles O4: the length law of codes, and the entry equation of `codeDigits` at the entry's LEN and CODE. -/
theorem codeDigitsMostSignificantFirst : Obligations.CodeDigitsMostSignificantFirst := fun s c =>
  ⟨codeBits_length s c, codeDigits_getElem? (ctLen s c).toNat (ctCode s c)⟩

end Sys2Proof.Machine

namespace Sys2Proof.Machine

/-! ## What an event can do

One inversion lemma for the host's turn, for a command and for the engine step, for the invariant and the flag rules to
cite. -/

/-! ### The host's turn -/

/-- The accesses the block serves (R61, R62). -/
theorem isBadAccess_eq_false_iff (width : Width) (a : Nat) :
    isBadAccess width a = false ↔ width = .w32 ∧ a % 4 = 0 ∧ a < 0x40000 := by
  have hsize : Config.blockSize = 0x40000 := rfl
  simp [isBadAccess, hsize, and_assoc]

/-- A read changes nothing but the counter of free words (R67, R70; log 4). -/
theorem busRead_state (width : Width) (a : Nat) (s : State) :
    ∃ d, (busRead width a s).1 = { s with draws := d } := by
  rcases busRead_cases width a s with ⟨-, h⟩ | ⟨-, -, -, h⟩ | ⟨-, -, h⟩
  · exact ⟨s.draws, by rw [h]⟩
  · exact ⟨s.draws + 1, by rw [h]⟩
  · exact ⟨s.draws, by rw [h]⟩

/-- A host turn leaves the block alone, or is an aligned 32-bit write at a non-reserved offset, which is lost in the busy
window (R68) or takes effect (R64). -/
theorem hostTurn_effect (s : State) :
    (∃ p r d, hostTurn s = { s with prog := p, received := r, draws := d }) ∨
    ∃ a v more, s.prog = .write .w32 (s.params.blockBase + a) v :: more ∧ a < 0x40000 ∧ a % 4 = 0 ∧
      targetOf a ≠ .reserved ∧
      (s.status.busy = true ∧ targetOf a ≠ .status ∧
          hostTurn s = answer .okay (overrun { s with prog := more }) ∨
       (s.status.busy = false ∨ targetOf a = .status) ∧
          hostTurn s = answer .okay (writeTarget (targetOf a) v { s with prog := more })) := by
  rcases hostTurn_cases s with ⟨-, ht⟩ | ⟨width, addr, more, -, ht⟩ | ⟨width, addr, v, more, hprog, ht⟩ | ⟨more, -, ht⟩
  · exact .inl ⟨s.prog, s.received, s.draws, ht⟩
  · left
    rw [ht]
    rcases transact_cases addr (busRead width) { s with prog := more } with ⟨-, h⟩ | ⟨a, -, -, h⟩
    · exact ⟨more, _, s.draws, h⟩
    · obtain ⟨d, hd⟩ := busRead_state width a { s with prog := more }
      exact ⟨more, _, d, by rw [h, hd]; rfl⟩
  · rw [ht]
    rcases transact_cases addr (fun a => busWrite width a v) { s with prog := more } with ⟨-, h⟩ | ⟨a, -, haddr, h⟩
    · exact .inl ⟨more, _, s.draws, h⟩
    · rcases busWrite_cases width a v { s with prog := more } with
        ⟨-, hw⟩ | ⟨-, -, hw⟩ | ⟨hgood, hres, hbusy, hstat, hw⟩ | ⟨hgood, hres, hserved, hw⟩
      · exact .inl ⟨more, _, s.draws, by rw [h, hw]; rfl⟩
      · exact .inl ⟨more, _, s.draws, by rw [h, hw]; rfl⟩
      · obtain ⟨rfl, hal, hlt⟩ := (isBadAccess_eq_false_iff width a).mp hgood
        exact .inr ⟨a, v, more, haddr ▸ hprog, hlt, hal, hres, .inl ⟨hbusy, hstat, by rw [h, hw]⟩⟩
      · obtain ⟨rfl, hal, hlt⟩ := (isBadAccess_eq_false_iff width a).mp hgood
        exact .inr ⟨a, v, more, haddr ▸ hprog, hlt, hal, hres, .inr ⟨hserved, by rw [h, hw]⟩⟩
  · left
    cases hb : s.status.busy
    · exact ⟨more, _, s.draws, by rw [ht, hb]; rfl⟩
    · exact ⟨s.prog, _, s.draws, by rw [ht, hb]; rfl⟩

/-- STATUS after a write: only CMD and STATUS itself change it. -/
theorem writeTarget_status (t : Target) (v : Word) (s : State) :
    (writeTarget t v s).status =
      match t with
      | .cmd => statusAccept s.status
      | .status => statusW1c v s.status
      | _ => s.status := by
  cases t <;> rfl

@[simp] theorem writeTarget_params (t : Target) (v : Word) (s : State) : (writeTarget t v s).params = s.params := by
  cases t <;> rfl

/-- No write that takes effect sets DONE. -/
theorem writeTarget_done (t : Target) (v : Word) (s : State) (h : (writeTarget t v s).status.done = true) :
    s.status.done = true := by
  rw [writeTarget_status] at h
  cases t with
  | cmd => simp at h
  | status => exact (Bool.and_eq_true_iff.mp h).1
  | _ => exact h

/-- No write that takes effect sets OVR. -/
theorem writeTarget_ovr (t : Target) (v : Word) (s : State) (h : (writeTarget t v s).status.ovr = true) :
    s.status.ovr = true := by
  rw [writeTarget_status] at h
  cases t with
  | cmd => simpa using h
  | status => exact (Bool.and_eq_true_iff.mp h).1
  | _ => exact h

/-! ### Commands and the engine step -/

/-- Every way a command can end. -/
theorem exec_cases {i : Instr} {s t : State} (h : exec i s = .next t) :
    (i = .nop ∧ t = complete 0#4 0#32 s) ∨
    (i = .ctClear ∧ t = complete 0#4 0#32 { s with ct := ctMap (fun _ => entryCleared) s.ct }) ∨
    (i = .sreset ∧ t = softReset s) ∨
    (∃ e, (i = .pack ∨ i = .unpack) ∧ t = errorReport (some i) e s) ∨
    (∃ r, i = .pack ∧ packRun s = .ok r ∧ t = complete 0#4 0#32 (packStore r s)) ∨
    (∃ r, i = .unpack ∧ unpackRun s = .ok r ∧ t = complete 0#4 0#32 (unpackStore r s)) := by
  cases i with
  | nop => cases h; exact .inl ⟨rfl, rfl⟩
  | ctClear => cases h; exact .inr (.inl ⟨rfl, rfl⟩)
  | sreset => cases h; exact .inr (.inr (.inl ⟨rfl, rfl⟩))
  | pack =>
    rcases execPack_cases s with ⟨e, -, hx⟩ | ⟨r, hr, hx⟩ <;> cases hx.symm.trans h
    · exact .inr (.inr (.inr (.inl ⟨e, .inl rfl, rfl⟩)))
    · exact .inr (.inr (.inr (.inr (.inl ⟨r, rfl, hr, rfl⟩))))
  | unpack =>
    rcases execUnpack_cases s with ⟨e, -, hx⟩ | ⟨r, hr, hx⟩ <;> cases hx.symm.trans h
    · exact .inr (.inr (.inr (.inl ⟨e, .inr rfl, rfl⟩)))
    · exact .inr (.inr (.inr (.inr (.inr ⟨r, rfl, hr, rfl⟩))))

/-- STATUS after a command: SRESET clears it, every other command completes (R162, R211). -/
theorem exec_status {i : Instr} {s t : State} (h : exec i s = .next t) :
    (i = .sreset ∧ t.status = statusReset) ∨ (i ≠ .sreset ∧ ∃ code, t.status = statusComplete code s.status) := by
  rcases exec_cases h with
    ⟨rfl, rfl⟩ | ⟨rfl, rfl⟩ | ⟨rfl, rfl⟩ | ⟨e, hi, rfl⟩ | ⟨r, rfl, -, rfl⟩ | ⟨r, rfl, -, rfl⟩
  · exact .inr ⟨nofun, _, rfl⟩
  · exact .inr ⟨nofun, _, rfl⟩
  · exact .inl ⟨rfl, rfl⟩
  · exact .inr ⟨by rcases hi with rfl | rfl <;> nofun, _, errorReport_status _ e s⟩
  · exact .inr ⟨nofun, _, rfl⟩
  · exact .inr ⟨nofun, _, rfl⟩

/-- Every way an engine step can go: the pending word's command, or the error report of an illegal word (R164, R168). -/
theorem engineStep_cases {s t : State} (h : engineStep s = .next t) :
    ∃ w, s.pending = some w ∧
      ((∃ i, decode w = .ok i ∧ exec i s = .next t) ∨
       (∃ r, decode w = .error r ∧ t = errorReport none (.illegalCmd w) s)) := by
  cases hp : s.pending with
  | none => simp [engineStep, hp] at h
  | some w =>
    refine ⟨w, rfl, ?_⟩
    rcases engineStep_pending s w hp with ⟨i, hd, hx⟩ | ⟨r, hd, hx⟩
    · exact .inl ⟨i, hd, hx ▸ h⟩
    · cases hx.symm.trans h
      exact .inr ⟨r, hd, rfl⟩

/-- STATUS after an engine step: cleared by SRESET, or the completion of a pending word other than SRESET's. -/
theorem engineStep_status {s t : State} (h : engineStep s = .next t) :
    t.status = statusReset ∨
    (∃ w, s.pending = some w ∧ w ≠ encode .sreset) ∧ ∃ code, t.status = statusComplete code s.status := by
  have hsreset : decode (encode .sreset) = .ok .sreset := Laws.EncodeDecode.sreset.2.2
  obtain ⟨w, hp, ⟨i, hd, hx⟩ | ⟨r, hd, rfl⟩⟩ := engineStep_cases h
  · rcases exec_status hx with ⟨-, ht⟩ | ⟨hi, ht⟩
    · exact .inl ht
    · refine .inr ⟨⟨w, hp, ?_⟩, ht⟩
      rintro rfl
      exact hi (Except.ok.inj (hd.symm.trans hsreset))
  · refine .inr ⟨⟨w, hp, ?_⟩, _, errorReport_status none _ s⟩
    rintro rfl
    cases hd.symm.trans hsreset

/-! ## The invariant

Beside the legal parameters, `HbpInv` is one condition for each of four parts of the state: lifecycle, table and the two
buffers. A part has one lemma per operation that touches it, and an event touches the parts only through these
operations, so it keeps the invariant. -/

/-- The command lifecycle's part of `HbpInv`: STATUS, PENDING and ERR_INFO. -/
structure LifecycleOk (st : Status) (pending : Option Word) (info : Word) : Prop where
  busy_iff_pending : st.busy = true ↔ pending ≠ none
  busy_not_done : st.busy = true → st.done = false
  not_done_no_err : st.done = false → st.err = 0#4
  err_defined : st.err.toNat ≤ 6
  success_no_info : st.done = true → st.err = 0#4 → info = 0#32

/-- The code table's part, for one entry (R40, R42). -/
def EntryOk (e : CtEntry) : Prop := e.valid = true → ∃ l : BitVec 6, e.len = some l ∧ 1 ≤ l.toNat ∧ l.toNat ≤ 32

/-- A buffer's part (R45, R46). -/
def BufferOk (depth : Nat) (m : Memory) : Prop := m.wf ∧ ∀ x ∈ m, x.1 < depth

/-- The invariant, part by part. -/
theorem hbpInv_iff (s : State) :
    HbpInv s ↔ s.params.Legal ∧ LifecycleOk s.status s.pending s.errInfo ∧ (∀ c, EntryOk (ctGet s.ct c)) ∧
      BufferOk s.params.symDepth s.symBuf ∧ BufferOk s.params.byteDepth s.byteBuf :=
  ⟨fun h => ⟨h.params_legal,
      ⟨h.busy_iff_pending, h.busy_not_done, h.not_done_no_err, h.err_defined, h.success_no_info⟩,
      h.valid_has_length, ⟨h.sym_wf, h.sym_bound⟩, h.byte_wf, h.byte_bound⟩,
    fun ⟨hp, hl, ht, hs, hb⟩ => ⟨hp, hl.busy_iff_pending, hl.busy_not_done, hl.not_done_no_err, hl.err_defined,
      hl.success_no_info, ht, hs.1, hs.2, hb.1, hb.2⟩⟩

/-! ### Lifecycle -/

theorem LifecycleOk.accept (st : Status) (w info : Word) : LifecycleOk (statusAccept st) (some w) info := by
  constructor <;> simp

theorem LifecycleOk.complete (st : Status) {code : BitVec 4} {info : Word} (hc : code.toNat ≤ 6)
    (hi : code = 0#4 → info = 0#32) : LifecycleOk (statusComplete code st) none info := by
  constructor <;> simp [hc]
  exact hi

theorem LifecycleOk.reset : LifecycleOk statusReset none 0#32 := by
  constructor <;> simp

theorem LifecycleOk.overrun {st : Status} {p : Option Word} {info : Word} (h : LifecycleOk st p info) :
    LifecycleOk (statusOverrun st) p info :=
  ⟨h.busy_iff_pending, h.busy_not_done, h.not_done_no_err, h.err_defined, h.success_no_info⟩

/-- Bit 1 of a write to STATUS clears DONE and ERR together (R25). -/
theorem statusW1c_of_ack {w : Word} (st : Status) (hw : w.getLsbD 1 = true) :
    (statusW1c w st).done = false ∧ (statusW1c w st).err = 0#4 := by
  simp only [statusW1c, hw]
  simp

/-- Without bit 1 a write to STATUS keeps both. -/
theorem statusW1c_of_not_ack {w : Word} (st : Status) (hw : w.getLsbD 1 = false) :
    (statusW1c w st).done = st.done ∧ (statusW1c w st).err = st.err := by
  simp only [statusW1c, hw]
  simp

theorem LifecycleOk.w1c {st : Status} {p : Option Word} {info : Word} (w : Word) (h : LifecycleOk st p info) :
    LifecycleOk (statusW1c w st) p info := by
  cases hw : w.getLsbD 1 with
  | true =>
    obtain ⟨hd, he⟩ := statusW1c_of_ack st hw
    exact ⟨h.busy_iff_pending, fun _ => hd, fun _ => he, by rw [he]; decide,
      fun hdone => by rw [hd] at hdone; cases hdone⟩
  | false =>
    obtain ⟨hd, he⟩ := statusW1c_of_not_ack st hw
    exact ⟨h.busy_iff_pending, hd ▸ h.busy_not_done, hd ▸ he ▸ h.not_done_no_err, he ▸ h.err_defined,
      hd ▸ he ▸ h.success_no_info⟩

/-! ### Table entries -/

theorem entryOk_setCode (w : Word) {e : CtEntry} (h : EntryOk e) : EntryOk (entrySetCode w e) := h

/-- VALID after a CT_META write: bit 31, and a legal LEN (R42). -/
theorem entrySetMeta_valid (w : Word) (e : CtEntry) :
    (entrySetMeta w e).valid = true ↔
      w.getLsbD 31 = true ∧ 1 ≤ (w.extractLsb' 0 6).toNat ∧ (w.extractLsb' 0 6).toNat ≤ 32 := by
  simp only [entrySetMeta, Bool.and_eq_true, decide_eq_true_eq, and_assoc]
  rfl

/-- R42 sets VALID only with a legal length. -/
theorem entryOk_setMeta (w : Word) (e : CtEntry) : EntryOk (entrySetMeta w e) := by
  intro hv
  obtain ⟨-, hpos, hmax⟩ := (entrySetMeta_valid w e).mp hv
  exact ⟨_, rfl, hpos, hmax⟩

theorem entryOk_of_invalid {e : CtEntry} (h : e.valid = false) : EntryOk e := fun hv => by simp [h] at hv

theorem entryOk_ctSet {t : CodeTable} {c : Byte} {e : CtEntry} (ht : ∀ d, EntryOk (ctGet t d)) (he : EntryOk e) :
    ∀ d, EntryOk (ctGet (ctSet t c e) d) := by
  intro d
  by_cases hd : d = c
  · subst hd
    simpa using he
  · simpa [ctGet_ctSet_other t c d e hd] using ht d

/-! ### Buffers -/

theorem BufferOk.writeWindow {depth : Nat} {m : Memory} (k : Nat) (v : Word) (hd : depth % 4 = 0) (h : BufferOk depth m) :
    BufferOk depth (writeWindow depth m k v) :=
  ⟨wf_writeWindow depth m k v h.1, bound_writeWindow depth m k v hd h.2⟩

theorem BufferOk.writeBytes {depth : Nat} {m : Memory} {l : List Byte} (hl : l.length ≤ depth) (h : BufferOk depth m) :
    BufferOk depth (m.writeBytes 0 l) :=
  ⟨Memory.wf_writeBytes l m 0 h.1, Memory.bound_writeBytes l m 0 depth h.2 (by omega)⟩

theorem BufferOk.empty (depth : Nat) : BufferOk depth [] := ⟨wf_empty, nofun⟩

/-- A successful UNPACK's symbols fit SYM_BUF (R140). -/
theorem unpackRun_ok_length {s : State} {r : UnpackOut} (h : unpackRun s = .ok r) :
    r.symbols.length ≤ s.params.symDepth := by
  simp only [unpackRun] at h
  split at h
  · cases h
  · split at h
    · cases h
    · split at h
      · cases h
      · split at h
        · cases h
        · cases h
          simp only
          omega

/-! ### Events -/

/-- The invariant does not speak of the host's lists, the schedule and the counter of free words. -/
theorem HbpInv.setHost {s : State} (h : HbpInv s) (p : List HostOp) (r : List Resp) (c : List Turn) (d : Nat) :
    HbpInv { s with prog := p, received := r, sched := c, draws := d } :=
  (hbpInv_iff _).mpr ((hbpInv_iff s).mp h)

theorem hbpInv_writeTarget (t : Target) (v : Word) {s : State} (h : HbpInv s) : HbpInv (writeTarget t v s) := by
  rw [hbpInv_iff] at h ⊢
  obtain ⟨hp, hl, ht, hs, hb⟩ := h
  cases t with
  | cmd => exact ⟨hp, .accept _ v _, ht, hs, hb⟩
  | status => exact ⟨hp, hl.w1c v, ht, hs, hb⟩
  | ctCode c => exact ⟨hp, hl, entryOk_ctSet ht (entryOk_setCode v (ht c)), hs, hb⟩
  | ctMeta c => exact ⟨hp, hl, entryOk_ctSet ht (entryOk_setMeta v _), hs, hb⟩
  | symWindow k => exact ⟨hp, hl, ht, hs.writeWindow k v hp.1, hb⟩
  | byteWindow k => exact ⟨hp, hl, ht, hs, hb.writeWindow k v hp.2.2.2.1⟩
  | _ => exact ⟨hp, hl, ht, hs, hb⟩

theorem hbpInv_overrun {s : State} (h : HbpInv s) : HbpInv (overrun s) := by
  rw [hbpInv_iff] at h ⊢
  obtain ⟨hp, hl, hrest⟩ := h
  exact ⟨hp, hl.overrun, hrest⟩

theorem hbpInv_hostTurn {s : State} (h : HbpInv s) : HbpInv (hostTurn s) := by
  rcases hostTurn_effect s with ⟨p, r, d, ht⟩ | ⟨a, v, more, -, -, -, -, ⟨-, -, ht⟩ | ⟨-, ht⟩⟩ <;> rw [ht]
  · exact h.setHost p r s.sched d
  · exact (hbpInv_overrun (h.setHost more s.received s.sched s.draws)).setHost _ _ _ _
  · exact (hbpInv_writeTarget (targetOf a) v (h.setHost more s.received s.sched s.draws)).setHost _ _ _ _

@[simp] theorem hostTurn_params (s : State) : (hostTurn s).params = s.params := by
  rcases hostTurn_effect s with ⟨p, r, d, ht⟩ | ⟨a, v, more, -, -, -, -, ⟨-, -, ht⟩ | ⟨-, ht⟩⟩ <;> simp [ht]

theorem hbpInv_hardReset {s : State} (h : HbpInv s) : HbpInv (hardReset s) := by
  obtain ⟨hp, -⟩ := (hbpInv_iff s).mp h
  rw [hbpInv_iff]
  refine ⟨hp, .reset, fun c => entryOk_of_invalid ?_, .empty _, .empty _⟩
  rw [hardReset_ct, ctGet_afterRst]
  rfl

/-- Every completion leaves STATUS, PENDING and ERR_INFO as the invariant wants them, and the rest of it alone. -/
theorem hbpInv_complete {code : BitVec 4} {info : Word} {s : State} (h : HbpInv s) (hc : code.toNat ≤ 6)
    (hi : code = 0#4 → info = 0#32) : HbpInv (complete code info s) := by
  rw [hbpInv_iff] at h ⊢
  obtain ⟨hp, -, hrest⟩ := h
  exact ⟨hp, .complete _ hc hi, hrest⟩

theorem hbpInv_zeroResults (cmd : Option Instr) {s : State} (h : HbpInv s) : HbpInv (zeroResults cmd s) := by
  rw [hbpInv_iff] at h ⊢
  rcases cmd with _ | _ | _ | _ | _ | _ <;> exact h

theorem hbpInv_errorReport (cmd : Option Instr) (e : CmdError) {s : State} (h : HbpInv s) :
    HbpInv (errorReport cmd e s) :=
  hbpInv_complete (hbpInv_zeroResults cmd h) (errCode_le e) fun h0 => absurd h0 (errCode_ne_zero e)

theorem hbpInv_exec {i : Instr} {s t : State} (h : HbpInv s) (hx : exec i s = .next t) : HbpInv t := by
  have success {u : State} (hu : HbpInv u) : HbpInv (complete 0#4 0#32 u) := hbpInv_complete hu (by decide) fun _ => rfl
  obtain ⟨hp, hl, ht, hs, hb⟩ := (hbpInv_iff s).mp h
  rcases exec_cases hx with
    ⟨-, rfl⟩ | ⟨-, rfl⟩ | ⟨-, rfl⟩ | ⟨e, -, rfl⟩ | ⟨r, -, hr, rfl⟩ | ⟨r, -, hr, rfl⟩
  · exact success h
  · refine success ((hbpInv_iff _).mpr ⟨hp, hl, fun c => entryOk_of_invalid ?_, hs, hb⟩)
    simp [entryCleared]
  · refine (hbpInv_iff _).mpr ⟨hp, .reset, fun c => entryOk_of_invalid ?_, hs, hb⟩
    simp [entryInvalidate]
  · exact hbpInv_errorReport _ e h
  · obtain ⟨-, -, -, -, -, hfits⟩ := packRun_ok_inv s r hr
    exact success ((hbpInv_iff _).mpr ⟨hp, hl, ht, hs, hb.writeBytes hfits⟩)
  · have hfits : r.symbols.length ≤ s.params.symDepth := unpackRun_ok_length hr
    exact success ((hbpInv_iff _).mpr ⟨hp, hl, ht, hs.writeBytes hfits, hb⟩)

theorem exec_params {i : Instr} {s t : State} (hx : exec i s = .next t) : t.params = s.params := by
  rcases exec_cases hx with
    ⟨-, rfl⟩ | ⟨-, rfl⟩ | ⟨-, rfl⟩ | ⟨e, -, rfl⟩ | ⟨r, -, -, rfl⟩ | ⟨r, -, -, rfl⟩ <;> simp

theorem engineStep_keeps_inv {s t : State} (h : HbpInv s) (hx : engineStep s = .next t) :
    HbpInv t ∧ t.params = s.params := by
  obtain ⟨w, -, ⟨i, -, hi⟩ | ⟨r, -, rfl⟩⟩ := engineStep_cases hx
  · exact ⟨hbpInv_exec h hi, exec_params hi⟩
  · exact ⟨hbpInv_errorReport none _ h, errorReport_params none _ s⟩

/-- Settles O56: each of the four events of a step keeps the invariant and the parameters. -/
theorem everyStepKeepsTheInvariant : Obligations.EveryStepKeepsTheInvariant := by
  intro s t h hstep
  have hpass : HbpInv (passTurn s) := h.setHost s.prog s.received s.sched.tail s.draws
  rcases step_cases s with ⟨-, hx⟩ | ⟨-, hx⟩ | ⟨-, -, hx⟩ | ⟨-, -, hx⟩
  · cases hx.symm.trans hstep
    exact ⟨hbpInv_hostTurn hpass, hostTurn_params _⟩
  · cases hx.symm.trans hstep
    exact ⟨hbpInv_hardReset hpass, rfl⟩
  · cases hx.symm.trans hstep
    exact ⟨hpass, rfl⟩
  · have hengine : engineStep (passTurn s) = .next t := hx.symm.trans hstep
    obtain ⟨hinv, hparams⟩ := engineStep_keeps_inv hpass hengine
    exact ⟨hinv, hparams⟩

/-! ## The flags of STATUS -/

/-- A host turn never sets DONE. -/
theorem hostTurn_done {s : State} (h : (hostTurn s).status.done = true) : s.status.done = true := by
  rcases hostTurn_effect s with ⟨p, r, d, ht⟩ | ⟨a, v, more, -, -, -, -, ⟨-, -, ht⟩ | ⟨-, ht⟩⟩ <;> rw [ht] at h
  · exact h
  · exact h
  · exact writeTarget_done (targetOf a) v { s with prog := more } h

/-- Settles O19: no event but an engine step sets DONE, and that one only by completing a word other than SRESET's. -/
theorem doneRisesOnlyAtCompletion : Obligations.DoneRisesOnlyAtCompletion := by
  intro s t hstep hbefore hafter
  rcases step_cases s with ⟨-, hx⟩ | ⟨-, hx⟩ | ⟨-, -, hx⟩ | ⟨hturn, hbusy, hx⟩
  · cases hx.symm.trans hstep
    have := hostTurn_done hafter
    simp [hbefore] at this
  · cases hx.symm.trans hstep
    simp at hafter
  · cases hx.symm.trans hstep
    simp [hbefore] at hafter
  · rcases engineStep_status (hx.symm.trans hstep) with ht | ⟨hw, code, ht⟩
    · simp [ht] at hafter
    · exact ⟨hturn, hbusy, by simp [ht], hw⟩

/-- An engine step never sets OVR: completion keeps it, SRESET clears it. -/
theorem engineStep_ovr {s t : State} (hx : engineStep s = .next t) (h : t.status.ovr = true) : s.status.ovr = true := by
  rcases engineStep_status hx with ht | ⟨-, code, ht⟩
  · simp [ht] at h
  · simpa [ht] using h

/-- Settles O20: of all events only a host write lost in the busy window sets OVR. -/
theorem ovrRisesOnlyByALostWrite : Obligations.OvrRisesOnlyByALostWrite := by
  intro s t hstep hbefore hafter
  rcases step_cases s with ⟨hturn, hx⟩ | ⟨-, hx⟩ | ⟨-, -, hx⟩ | ⟨-, -, hx⟩
  · cases hx.symm.trans hstep
    rcases hostTurn_effect (passTurn s) with
      ⟨p, r, d, ht⟩ | ⟨a, v, more, hprog, hlt, hal, hres, ⟨hbusy, hstat, -⟩ | ⟨-, ht⟩⟩
    · simp [ht, hbefore] at hafter
    · refine ⟨hturn, hbusy, a, v, more, hprog, hlt, hal, ?_, hres⟩
      rintro rfl
      exact hstat rfl
    · rw [ht] at hafter
      have := writeTarget_ovr _ v _ hafter
      simp [hbefore] at this
  · cases hx.symm.trans hstep
    simp at hafter
  · cases hx.symm.trans hstep
    simp [hbefore] at hafter
  · have := engineStep_ovr (hx.symm.trans hstep) hafter
    simp [hbefore] at this

/-- Settles O45: of the ends of a command, only the success of PACK and that of UNPACK store bytes. -/
theorem onlyTheirCommandWritesABuffer : Obligations.OnlyTheirCommandWritesABuffer := by
  intro i s t h
  rcases exec_cases h with
    ⟨-, rfl⟩ | ⟨-, rfl⟩ | ⟨-, rfl⟩ | ⟨e, -, rfl⟩ | ⟨r, hi, -, rfl⟩ | ⟨r, hi, -, rfl⟩
  · simp
  · simp
  · simp
  · simp
  · simp [hi]
  · simp [hi]

/-! ## Registers on the bus -/

/-- A read of an offset that is defined while BUSY = 1 gives its word in every state (R64). -/
theorem busRead_defined (a : Nat) (s : State) (h4 : a % 4 = 0) (hr : a < 0x40000)
    (hd : definedWhileBusy (targetOf a) = true) :
    busRead .w32 a s = (s, .data (readTarget (targetOf a) s)) := by
  simp [busRead, isBadAccess_false a h4 hr, hd]

/-- A write to a reserved offset changes nothing (R64). -/
theorem busWrite_reserved (a : Nat) (v : Word) (s : State) (h4 : a % 4 = 0) (hr : a < 0x40000)
    (ht : targetOf a = .reserved) : busWrite .w32 a v s = (s, .okay) := by
  simp [busWrite, isBadAccess_false a h4 hr, ht, isReserved]

/-- A write to STATUS takes effect in every state (R25, R64). -/
theorem busWrite_status (v : Word) (s : State) : busWrite .w32 0x008 v s = (writeStatus v s, .okay) := by
  have ht : targetOf 0x008 = .status := rfl
  simp [busWrite, isBadAccess_false, ht, isReserved, writeTarget]

/-! ### The words of the registers, bit by bit -/

/-- The bits of STATUS (R25). -/
theorem statusWord_getLsbD (st : Status) (i : Nat) :
    (statusWord st).getLsbD i =
      if i = 0 then st.busy else if i = 1 then st.done else if i = 2 then st.ovr
      else decide (4 ≤ i) && st.err.getLsbD (i - 4) := by
  unfold statusWord
  rw [BitVec.getLsbD_append, BitVec.getLsbD_append, BitVec.getLsbD_append, BitVec.getLsbD_append, BitVec.getLsbD_append]
  match i with
  | 0 | 1 | 2 | 3 => simp
  | i + 4 =>
    simpa using fun h : st.err.getLsbD i = true => BitVec.lt_of_getLsbD h

/-- ERR is bits 7:4 of STATUS, and bits 31:8 are 0 (R25). -/
theorem statusWord_fields (st : Status) :
    (statusWord st).extractLsb' 4 4 = st.err ∧ (statusWord st).extractLsb' 8 24 = 0#24 := by
  constructor
  · ext i hi
    rw [BitVec.getElem_extractLsb', statusWord_getLsbD, if_neg (by omega), if_neg (by omega), if_neg (by omega)]
    simp [hi]
  · ext i hi
    rw [BitVec.getElem_extractLsb', statusWord_getLsbD, if_neg (by omega), if_neg (by omega), if_neg (by omega),
      BitVec.getLsbD_of_ge _ _ (by omega)]
    simp

/-- The bits of CONFIG (R26). -/
theorem configWord_getLsbD (c : ConfigReg) (i : Nat) :
    (configWord c).getLsbD i = if i = 0 then c.padmode else if i = 1 then c.ie else false := by
  unfold configWord
  rw [BitVec.getLsbD_append, BitVec.getLsbD_append]
  match i with
  | 0 | 1 => simp
  | i + 2 => simp

/-- CONFIG reads back the two bits it keeps (R26). -/
theorem configWord_configOfWord (w : Word) : configWord (configOfWord w) = w &&& 3#32 := by
  refine BitVec.eq_of_getLsbD_eq fun i hi => ?_
  rw [configWord_getLsbD, BitVec.getLsbD_and]
  match i with
  | 0 | 1 => simp [configOfWord]
  | i + 2 => simp [BitVec.getLsbD_ofNat, Nat.testBit_succ]

/-- The bits of CT_META (R42). -/
theorem metaWord_getLsbD (valid : Bool) (len : BitVec 6) (i : Nat) :
    (metaWord valid len).getLsbD i = if i < 6 then len.getLsbD i else decide (i = 31) && valid := by
  unfold metaWord
  rw [BitVec.getLsbD_append, BitVec.getLsbD_append]
  by_cases h : i < 6
  · simp [h]
  · by_cases h31 : i = 31
    · simp [h31]
    · simp [h, h31]
      omega

/-- VALID is bit 31 of CT_META, LEN is bits 5:0, and the bits between are 0 (R42). -/
theorem metaWord_fields (valid : Bool) (len : BitVec 6) :
    (metaWord valid len).getLsbD 31 = valid ∧ (metaWord valid len).extractLsb' 6 25 = 0#25 ∧
    (metaWord valid len).extractLsb' 0 6 = len := by
  refine ⟨metaWord_getLsbD valid len 31, ?_, ?_⟩
  · ext i hi
    rw [BitVec.getElem_extractLsb', metaWord_getLsbD, if_neg (by omega), decide_eq_false (by omega)]
    simp
  · ext i hi
    rw [BitVec.getElem_extractLsb', metaWord_getLsbD, if_pos (by omega)]
    simp [hi]

/-- A byte register reads zero-extended (R29). -/
theorem setWidth_byte_bits (b : Byte) :
    (b.setWidth 32).extractLsb' 0 8 = b ∧ (b.setWidth 32).extractLsb' 8 24 = 0#24 := by
  constructor
  · ext i hi
    have : i < 32 := by omega
    simp [this, hi]
  · ext i hi
    simp

/-! ### The obligations about registers -/

/-- Settles O18: STATUS reads its word and takes its write whatever BUSY is. -/
theorem statusReadsAndAcknowledges : Obligations.StatusReadsAndAcknowledges := by
  intro s w
  obtain ⟨herr, hhigh⟩ := statusWord_fields s.status
  refine ⟨⟨statusWord s.status, busRead_defined 0x008 s rfl (by decide) rfl, statusWord_getLsbD _ 0,
    statusWord_getLsbD _ 1, statusWord_getLsbD _ 2, statusWord_getLsbD _ 3, herr, hhigh⟩,
    statusW1c w s.status, busWrite_status w s, rfl, statusW1c_of_ack s.status, statusW1c_of_not_ack s.status, ?_, ?_⟩
  · intro hw
    rw [statusW1c_ovr, hw]
    simp
  · intro hw
    rw [statusW1c_ovr, hw]
    simp

/-- The register file ends at CAPS_CODE (R22). -/
theorem registerTarget_reserved (k : Nat) (h : 12 ≤ k) : registerTarget k = .reserved := by
  obtain ⟨n, rfl⟩ := Nat.exists_eq_add_of_le' h
  rfl

/-- The three reserved ranges of R35. -/
theorem targetOf_reserved (a : Nat) (h : 0x030 ≤ a ∧ a < 0x400 ∨ 0xC00 ≤ a ∧ a < 0x10000 ∨ 0x30000 ≤ a) :
    targetOf a = .reserved := by
  unfold targetOf
  rcases h with ⟨hlo, hhi⟩ | ⟨hlo, hhi⟩ | hlo
  · rw [if_pos hhi, registerTarget_reserved (a / 4) (by omega)]
  · rw [if_neg (by omega), if_neg (by omega), if_pos hhi]
  · rw [if_neg (by omega), if_neg (by omega), if_neg (by omega), if_neg (by omega), if_neg (by omega)]

/-- Settles O46: a reserved offset is defined while BUSY = 1, and its writes are dropped before OVR is looked at. -/
theorem reservedOffsetsAreInert : Obligations.ReservedOffsetsAreInert := by
  intro s a v h4 hrange
  have hr : a < 0x40000 := by omega
  have ht : targetOf a = .reserved := targetOf_reserved a (by omega)
  refine ⟨?_, busWrite_reserved a v s h4 hr ht⟩
  rw [busRead_defined a s h4 hr (by rw [ht]; rfl), ht]
  rfl

/-- Settles O52: each write is the idle write of its register, and the read after it the idle read. -/
theorem configAndCountWrites : Obligations.ConfigAndCountWrites := by
  intro s w hs
  refine ⟨?_, ?_, ?_⟩
  · have hw : busWrite .w32 0x00C w s = ({ s with config := configOfWord w }, .okay) :=
      busWrite_idle 0x00C w s rfl (by decide) hs (by decide)
    intro t
    have ht : t = { s with config := configOfWord w } := congrArg Prod.fst hw
    rw [ht]
    refine ⟨rfl, ?_⟩
    rw [← configWord_configOfWord w]
    exact busRead_idle 0x00C _ rfl (by decide) hs
  · have hw : busWrite .w32 0x010 w s = ({ s with symCount := w }, .okay) :=
      busWrite_idle 0x010 w s rfl (by decide) hs (by decide)
    rw [hw]
    exact ⟨rfl, busRead_idle 0x010 _ rfl (by decide) hs⟩
  · have hw : busWrite .w32 0x014 w s = ({ s with byteCount := w }, .okay) :=
      busWrite_idle 0x014 w s rfl (by decide) hs (by decide)
    rw [hw]
    exact ⟨rfl, busRead_idle 0x014 _ rfl (by decide) hs⟩

/-- Settles O53: the constants stand at offsets that are defined while BUSY = 1; the rest are idle accesses. -/
theorem readOnlyRegisters : Obligations.ReadOnlyRegisters := by
  intro s w
  refine ⟨busRead_defined 0x000 s rfl (by decide) rfl, busRead_defined 0x004 s rfl (by decide) rfl,
    busRead_defined 0x024 s rfl (by decide) rfl, busRead_defined 0x028 s rfl (by decide) rfl,
    busRead_defined 0x02C s rfl (by decide) rfl, fun hs => ⟨?_, ?_, ?_, ?_⟩⟩
  · obtain ⟨hlow, hhigh⟩ := setWidth_byte_bits s.resPad
    exact ⟨_, busRead_idle 0x018 s rfl (by decide) hs, hlow, hhigh⟩
  · exact busRead_idle 0x01C s rfl (by decide) hs
  · exact busRead_idle 0x020 s rfl (by decide) hs
  · simp only [List.forall_mem_cons]
    exact ⟨busWrite_idle 0x000 w s rfl (by decide) hs (by decide), busWrite_idle 0x018 w s rfl (by decide) hs (by decide),
      busWrite_idle 0x01C w s rfl (by decide) hs (by decide), busWrite_idle 0x020 w s rfl (by decide) hs (by decide),
      busWrite_idle 0x024 w s rfl (by decide) hs (by decide), busWrite_idle 0x028 w s rfl (by decide) hs (by decide),
      busWrite_idle 0x02C w s rfl (by decide) hs (by decide), nofun⟩

/-- The CT_CODE word of an entry, written while idle (R41). -/
theorem busWrite_ctCode (s : State) (c : Byte) (w : Word) (hs : s.status.busy = false) :
    busWrite .w32 (0x400 + 8 * c.toNat) w s = ({ s with ct := ctSet s.ct c (entrySetCode w (ctGet s.ct c)) }, .okay) := by
  have hc := c.isLt
  have ht := targetOf_ctCode c
  rw [busWrite_idle _ w s (by omega) (by omega) hs (by rw [ht]; nofun), ht]
  rfl

/-- The CT_META word of an entry, written while idle (R42). -/
theorem busWrite_ctMeta (s : State) (c : Byte) (w : Word) (hs : s.status.busy = false) :
    busWrite .w32 (0x404 + 8 * c.toNat) w s = ({ s with ct := ctSet s.ct c (entrySetMeta w (ctGet s.ct c)) }, .okay) := by
  have hc := c.isLt
  have ht := targetOf_ctMeta c
  rw [busWrite_idle _ w s (by omega) (by omega) hs (by rw [ht]; nofun), ht]
  rfl

theorem busRead_ctCode (s : State) (c : Byte) (hs : s.status.busy = false) :
    busRead .w32 (0x400 + 8 * c.toNat) s = (s, .data (ctCode s c)) := by
  have hc := c.isLt
  rw [busRead_idle _ s (by omega) (by omega) hs, targetOf_ctCode]
  rfl

theorem busRead_ctMeta (s : State) (c : Byte) (hs : s.status.busy = false) :
    busRead .w32 (0x404 + 8 * c.toNat) s = (s, .data (metaWord (ctValid s c) (ctLen s c))) := by
  have hc := c.isLt
  rw [busRead_idle _ s (by omega) (by omega) hs, targetOf_ctMeta]
  rfl

/-- Settles O51: each write sets one field of one entry, and the idle read gives that field back. -/
theorem codeTableWrites : Obligations.CodeTableWrites := by
  intro s c w hs
  refine ⟨?_, ?_⟩
  · rw [busWrite_ctCode s c w hs]
    intro t
    have hentry : ctGet t.ct c = entrySetCode w (ctGet s.ct c) := ctGet_ctSet_same _ _ _
    have hcode : ctCode t c = w := by simp only [ctCode, hentry]; rfl
    exact ⟨hcode ▸ busRead_ctCode t c hs, hentry, fun d hd => ctGet_ctSet_other _ _ _ _ hd, rfl⟩
  · rw [busWrite_ctMeta s c w hs]
    intro t
    have hentry : ctGet t.ct c = entrySetMeta w (ctGet s.ct c) := ctGet_ctSet_same _ _ _
    have hlen : ctLen t c = w.extractLsb' 0 6 := by simp only [ctLen, hentry]; rfl
    obtain ⟨hvalid, hzero, hlow⟩ := metaWord_fields (ctValid t c) (ctLen t c)
    refine ⟨hlen, ?_, ⟨_, busRead_ctMeta t c hs, hvalid, hzero, hlow.trans hlen⟩, ?_,
      fun d hd => ctGet_ctSet_other _ _ _ _ hd, rfl⟩
    · rw [ctValid, hentry]
      exact entrySetMeta_valid w _
    · rw [hentry]
      rfl

end Sys2Proof.Machine

namespace Sys2Proof.Machine

/-! ## The bus, the windows and the host's turn (20_memory.md) -/

/-! ### The order of events (R72) -/

/-- A turn that the schedule holds is taken whatever BUSY is (log 5). -/
theorem nextTurn_of_head {s : State} {t : Turn} (h : s.sched.head? = some t) : nextTurn s = t := by
  obtain ⟨rest, hs⟩ := List.head?_eq_some_iff.mp h
  simp [nextTurn, hs]

theorem nextTurn_of_hostNext {s : State} (h : HostNext s) : nextTurn s = .host := by
  rcases h with ⟨hnil, hidle⟩ | hhead
  · simp [nextTurn, hnil, hidle]
  · exact nextTurn_of_head hhead

/-- Settles O12: of the ways a step can go, the next turn leaves one. -/
theorem stepTakesTheScheduledTurn : Obligations.StepTakesTheScheduledTurn := by
  intro s
  refine ⟨fun h => ?_, fun h hidle => ?_, fun h => ?_⟩
  · rw [step, nextTurn_of_hostNext h, takeTurn]
  · rw [step, nextTurn_of_head h, takeTurn, passTurn_status, hidle, if_neg Bool.false_ne_true]
  · rw [step, nextTurn_of_head h, takeTurn]

/-! ### The host's turn (R60, R111) -/

/-- No read rule looks at the host's operations. -/
theorem readTarget_setProg (t : Target) (s : State) (p : List HostOp) :
    readTarget t { s with prog := p } = readTarget t s := by
  cases t <;> rfl

/-- A write rule neither looks at the host's operations nor changes them. -/
theorem writeTarget_setProg (t : Target) (v : Word) (s : State) (p : List HostOp) :
    writeTarget t v { s with prog := p } = { writeTarget t v s with prog := p } := by
  cases t <;> rfl

/-- The block does not see the host's operations: a read commutes with moving them on. -/
theorem busRead_setProg (width : Width) (a : Nat) (s : State) (p : List HostOp) :
    busRead width a { s with prog := p } = ({ (busRead width a s).1 with prog := p }, (busRead width a s).2) := by
  unfold busRead
  rw [readTarget_setProg]
  split
  · rfl
  · split <;> rfl

/-- The block does not see the host's operations: a write commutes with moving them on. -/
theorem busWrite_setProg (width : Width) (a : Nat) (v : Word) (s : State) (p : List HostOp) :
    busWrite width a v { s with prog := p } =
      ({ (busWrite width a v s).1 with prog := p }, (busWrite width a v s).2) := by
  unfold busWrite
  rw [writeTarget_setProg]
  split
  · rfl
  · split
    · rfl
    · split <;> rfl

/-- A read leaves the answers the host has had. -/
theorem busRead_received (width : Width) (a : Nat) (s : State) : (busRead width a s).1.received = s.received := by
  obtain ⟨d, hd⟩ := busRead_state width a s
  rw [hd]

/-- A write leaves the answers the host has had. -/
theorem busWrite_received (width : Width) (a : Nat) (v : Word) (s : State) :
    (busWrite width a v s).1.received = s.received := by
  rcases busWrite_cases width a v s with ⟨-, h⟩ | ⟨-, -, h⟩ | ⟨-, -, -, -, h⟩ | ⟨-, -, -, h⟩
  · rw [h]
  · rw [h]
  · rw [h, overrun_received]
  · rw [h]
    cases targetOf a <;> rfl

/-- A transaction at a host address of the block (R60). -/
theorem transact_inside (access : Nat → State → State × Resp) (s : State) {a : Nat} (ha : a < 0x40000) :
    transact (s.params.blockBase + a) access s = answer (access a s).2 (access a s).1 := by
  rw [transact, (hostOffset_eq_some s.params _ a ha).mpr rfl]

/-- A transaction at any other host address (R60; log 8). -/
theorem transact_outside {addr : Nat} (access : Nat → State → State × Resp) {s : State}
    (h : addr < s.params.blockBase ∨ s.params.blockBase + 0x40000 ≤ addr) :
    transact addr access s = answer .notReached s := by
  rcases transact_cases addr access s with ⟨-, ht⟩ | ⟨a, ha, rfl, -⟩
  · exact ht
  · omega

theorem hostTurn_read {s : State} {width : Width} {addr : Nat} {more : List HostOp}
    (h : s.prog = .read width addr :: more) :
    hostTurn s = transact addr (busRead width) { s with prog := more } := by
  rw [hostTurn, h]

theorem hostTurn_write {s : State} {width : Width} {addr : Nat} {v : Word} {more : List HostOp}
    (h : s.prog = .write width addr v :: more) :
    hostTurn s = transact addr (fun a => busWrite width a v) { s with prog := more } := by
  rw [hostTurn, h]

/-- One turn of `wait` reads STATUS, and the loop ends where that read shows BUSY = 0 (R111; log 12). -/
theorem hostTurn_wait {s : State} {more : List HostOp} (h : s.prog = .wait :: more) :
    hostTurn s = { s with
      prog := if s.status.busy then .wait :: more else more
      received := .data (statusWord s.status) :: s.received } := by
  rcases hostTurn_cases s with ⟨hp, -⟩ | ⟨_, _, _, hp, -⟩ | ⟨_, _, _, _, hp, -⟩ | ⟨_, hp, ht⟩
  · cases h.symm.trans hp
  · cases h.symm.trans hp
  · cases h.symm.trans hp
  · cases h.symm.trans hp
    rw [ht]
    cases s.status.busy
    · rfl
    · rw [if_pos rfl, if_pos rfl, ← h]
      rfl

/-- Settles O15: the turn takes its operation off the list, which the block's transaction does not see. -/
theorem hostOperations : Obligations.HostOperations := by
  intro s width addr v more
  refine ⟨fun hp a ha haddr => ?_, fun hp a ha haddr => ?_, fun hp hout => ?_, hostTurn_wait, fun hp => ?_⟩
  · rw [hostTurn_read hp, haddr, transact_inside (busRead width) { s with prog := more } ha, busRead_setProg,
      ← busRead_received width a s]
    rfl
  · rw [hostTurn_write hp, haddr, transact_inside (fun a => busWrite width a v) { s with prog := more } ha,
      busWrite_setProg, ← busWrite_received width a v s]
    rfl
  · rcases hp with hp | hp
    · rw [hostTurn_read hp]
      exact transact_outside _ hout
    · rw [hostTurn_write hp]
      exact transact_outside _ hout
  · rw [hostTurn, hp]

/-! ### The address map (R65): which offsets STATUS and the reads defined while BUSY = 1 have -/

theorem targetOf_register {k : Nat} (h : k < 0x100) : targetOf (4 * k) = registerTarget k := by
  rw [targetOf, if_pos (by omega), Nat.mul_div_cancel_left k (by decide)]

/-- What stands above the registers. -/
theorem targetOf_above_registers {a : Nat} (h : 0x400 ≤ a) :
    targetOf a = .reserved ∨ (∃ c, targetOf a = .ctCode c ∨ targetOf a = .ctMeta c) ∨
    ∃ k, targetOf a = .symWindow k ∨ targetOf a = .byteWindow k := by
  unfold targetOf tableTarget
  rw [if_neg (by omega)]
  split
  · split
    · exact .inr (.inl ⟨_, .inl rfl⟩)
    · exact .inr (.inl ⟨_, .inr rfl⟩)
  · split
    · exact .inl rfl
    · split
      · exact .inr (.inr ⟨_, .inl rfl⟩)
      · split
        · exact .inr (.inr ⟨_, .inr rfl⟩)
        · exact .inl rfl

/-- Above the registers nothing but a reserved offset is defined while BUSY = 1 (R67). -/
theorem definedWhileBusy_above_registers {a : Nat} (h : 0x400 ≤ a) :
    definedWhileBusy (targetOf a) = isReserved (targetOf a) := by
  rcases targetOf_above_registers h with ht | ⟨c, ht | ht⟩ | ⟨k, ht | ht⟩
  all_goals
    rw [ht]
    rfl

/-- STATUS stands at offset 0x008 and nowhere else. -/
theorem targetOf_eq_status_iff {a : Nat} (h4 : a % 4 = 0) : targetOf a = .status ↔ a = 0x008 := by
  refine ⟨fun ht => ?_, fun ha => by rw [ha]; rfl⟩
  by_cases hreg : a < 0x400
  · obtain ⟨k, rfl⟩ := Nat.dvd_of_mod_eq_zero h4
    rw [targetOf_register (by omega)] at ht
    have hk : k < 12 := by
      by_contra hk
      rw [registerTarget_reserved k (by omega)] at ht
      cases ht
    revert ht
    exact (by decide : ∀ k < 12, registerTarget k = .status → 4 * k = 0x008) k hk
  · rcases targetOf_above_registers (Nat.le_of_not_lt hreg) with h | ⟨c, h | h⟩ | ⟨k, h | h⟩
    all_goals cases h.symm.trans ht

/-- The offsets whose reads are defined while BUSY = 1 (R67). -/
theorem definedWhileBusy_iff {a : Nat} (h4 : a % 4 = 0) :
    definedWhileBusy (targetOf a) = true ↔
      a ∈ [0x000, 0x004, 0x008, 0x00C, 0x024, 0x028, 0x02C] ∨ targetOf a = .reserved := by
  by_cases hreg : a < 0x030
  · obtain ⟨k, rfl⟩ := Nat.dvd_of_mod_eq_zero h4
    have hk : k < 12 := by omega
    exact (by decide : ∀ k < 12, definedWhileBusy (targetOf (4 * k)) = true ↔
      4 * k ∈ [0x000, 0x004, 0x008, 0x00C, 0x024, 0x028, 0x02C] ∨ targetOf (4 * k) = .reserved) k hk
  · have hlist : a ∉ [0x000, 0x004, 0x008, 0x00C, 0x024, 0x028, 0x02C] := by
      simp only [List.mem_cons, List.not_mem_nil, or_false]
      omega
    by_cases hfile : a < 0x400
    · simp [targetOf_reserved a (by omega), definedWhileBusy]
    · simp [definedWhileBusy_above_registers (Nat.le_of_not_lt hfile), isReserved, hlist]

/-! ### The busy window (R67, R68) -/

/-- Settles O17: a write is dropped as reserved, lost with OVR set, or served, which while BUSY = 1 only STATUS is. -/
theorem busyWindowWrites : Obligations.BusyWindowWrites := by
  intro s a v hbusy h4 hr
  by_cases hst : a = 0x008
  · rw [if_pos hst, hst]
    exact busWrite_status v s
  rw [if_neg hst]
  by_cases hres : targetOf a = .reserved
  · rw [if_pos hres]
    exact busWrite_reserved a v s h4 hr hres
  · have hlost : targetOf a ≠ .status := fun ht => hst ((targetOf_eq_status_iff h4).mp ht)
    rw [if_neg hres]
    simp [busWrite, isBadAccess_false a h4 hr, isReserved, hres, hbusy, hlost, overrun, statusOverrun]

/-- Settles O48: an access that is served is answered, and only the undefined read moves the counter of free words. -/
theorem readsHaveNoSideEffects : Obligations.ReadsHaveNoSideEffects := by
  intro s a v h4 hr
  have hgood := isBadAccess_false a h4 hr
  constructor
  · rcases busWrite_cases .w32 a v s with ⟨hbad, -⟩ | ⟨-, -, h⟩ | ⟨-, -, -, -, h⟩ | ⟨-, -, -, h⟩
    · cases hgood.symm.trans hbad
    · rw [h]
    · rw [h]
    · rw [h]
  · rcases busRead_cases .w32 a s with ⟨hbad, -⟩ | ⟨-, hbusy, -, h⟩ | ⟨-, -, h⟩
    · cases hgood.symm.trans hbad
    · rw [h]
      exact ⟨_, rfl, .inr ⟨hbusy, rfl, rfl⟩⟩
    · rw [h]
      exact ⟨_, rfl, .inl rfl⟩

/-- Settles O49: the two ways a served read goes while BUSY = 1, told apart by R67's list. -/
theorem busyReadsAreFresh : Obligations.BusyReadsAreFresh := by
  intro s a hbusy h4 hr
  by_cases hd : definedWhileBusy (targetOf a) = true
  · rw [if_pos ((definedWhileBusy_iff h4).mp hd)]
    exact busRead_defined a s h4 hr hd
  · rw [if_neg (mt (definedWhileBusy_iff h4).mpr hd)]
    simp [busRead, isBadAccess_false a h4 hr, hbusy, hd]

/-! ### Lanes of a window word (R66) -/

/-- A word is its four lanes. -/
theorem eq_of_lanes {v w : Word} (h : ∀ n < 4, lane v n = lane w n) : v = w := by
  refine BitVec.eq_of_getLsbD_eq fun i hi => ?_
  have hbit := congrArg (BitVec.getLsbD · (i % 8)) (h (i / 8) (by omega))
  have hmod : i % 8 < 8 := Nat.mod_lt i (by decide)
  simpa [lane, hmod, Nat.div_add_mod] using hbit

/-- Lane n of a word read within the depth is byte 4k+n. -/
theorem lane_readWindow {d k : Nat} (rd : Nat → Byte) (hk : 4 * k < d) {n : Nat} (hn : n < 4) :
    lane (readWindow d rd k) n = rd (4 * k + n) := by
  rw [readWindow, if_pos hk, lane]
  match n, hn with
  | 0, _ => exact BitVec.extractLsb'_append_eq_right
  | 1, _ =>
    rw [BitVec.extractLsb'_append_eq_of_le (by decide)]
    exact BitVec.extractLsb'_append_eq_right
  | 2, _ =>
    rw [BitVec.extractLsb'_append_eq_of_le (by decide), BitVec.extractLsb'_append_eq_of_le (by decide)]
    exact BitVec.extractLsb'_append_eq_right
  | 3, _ =>
    rw [BitVec.extractLsb'_append_eq_of_le (by decide), BitVec.extractLsb'_append_eq_of_le (by decide)]
    exact BitVec.extractLsb'_append_eq_left

/-- A word read within the depth is the word whose lanes its four bytes are. -/
theorem readWindow_eq {d k : Nat} {rd : Nat → Byte} {v : Word} (hk : 4 * k < d)
    (h : ∀ n < 4, rd (4 * k + n) = lane v n) :
    readWindow d rd k = v :=
  eq_of_lanes fun n hn => (lane_readWindow rd hk hn).trans (h n hn)

theorem readWindow_beyond {d k : Nat} (rd : Nat → Byte) (hk : d ≤ 4 * k) : readWindow d rd k = 0#32 :=
  if_neg (Nat.not_lt.mpr hk)

theorem writeWindow_beyond {d k : Nat} (m : Memory) (v : Word) (hk : d ≤ 4 * k) : writeWindow d m k v = m :=
  if_neg (Nat.not_lt.mpr hk)

/-- A write within the depth puts lane n into byte 4k+n. -/
theorem read?_writeWindow_lane {d k : Nat} (m : Memory) (v : Word) (hk : 4 * k < d) {n : Nat} (hn : n < 4) :
    (writeWindow d m k v).read? (4 * k + n) = some (lane v n) := by
  rw [read?_writeWindow d k m v _ hk, if_pos (by omega), Nat.add_sub_cancel_left]

/-- A write within the depth changes no byte outside its word. -/
theorem read?_writeWindow_other {d k : Nat} (m : Memory) (v : Word) (hk : 4 * k < d) {i : Nat}
    (hi : i < 4 * k ∨ 4 * k + 4 ≤ i) : (writeWindow d m k v).read? i = m.read? i := by
  rw [read?_writeWindow d k m v _ hk, if_neg (by omega)]

/-! ### The two windows on the bus (R65, R66) -/

theorem symRead_of_read? {s : State} {i : Nat} {b : Byte} (h : s.symBuf.read? i = some b) : symRead s i = b := by
  rw [symRead, h]
  rfl

theorem byteRead_of_read? {s : State} {j : Nat} {b : Byte} (h : s.byteBuf.read? j = some b) : byteRead s j = b := by
  rw [byteRead, h]
  rfl

theorem busWrite_symWindow (s : State) {k : Nat} (v : Word) (hk : k < 16384) (hs : s.status.busy = false) :
    busWrite .w32 (0x10000 + 4 * k) v s =
      ({ s with symBuf := writeWindow s.params.symDepth s.symBuf k v }, .okay) := by
  have ht := targetOf_symWindow k hk
  rw [busWrite_idle _ v s (by omega) (by omega) hs (by rw [ht]; nofun), ht]
  rfl

theorem busRead_symWindow (s : State) {k : Nat} (hk : k < 16384) (hs : s.status.busy = false) :
    busRead .w32 (0x10000 + 4 * k) s = (s, .data (readWindow s.params.symDepth (symRead s) k)) := by
  rw [busRead_idle _ s (by omega) (by omega) hs, targetOf_symWindow k hk]
  rfl

theorem busWrite_byteWindow (s : State) {k : Nat} (v : Word) (hk : k < 16384) (hs : s.status.busy = false) :
    busWrite .w32 (0x20000 + 4 * k) v s =
      ({ s with byteBuf := writeWindow s.params.byteDepth s.byteBuf k v }, .okay) := by
  have ht := targetOf_byteWindow k hk
  rw [busWrite_idle _ v s (by omega) (by omega) hs (by rw [ht]; nofun), ht]
  rfl

theorem busRead_byteWindow (s : State) {k : Nat} (hk : k < 16384) (hs : s.status.busy = false) :
    busRead .w32 (0x20000 + 4 * k) s = (s, .data (readWindow s.params.byteDepth (byteRead s) k)) := by
  rw [busRead_idle _ s (by omega) (by omega) hs, targetOf_byteWindow k hk]
  rfl

/-- Settles O50: each window is one buffer, written lane by lane and read back through the same lanes. -/
theorem bufferWindowLanes : Obligations.BufferWindowLanes := by
  intro s k v _ hs hk
  refine ⟨?_, ?_⟩
  · rw [busWrite_symWindow s v hk hs, busRead_symWindow s hk hs]
    intro t
    refine ⟨fun hin => ?_, fun hout => ?_⟩
    · have hlane : ∀ n < 4, symRead t (4 * k + n) = lane v n := fun n hn =>
        symRead_of_read? (read?_writeWindow_lane s.symBuf v hin hn)
      refine ⟨hlane, fun i hi => read?_writeWindow_other s.symBuf v hin hi, rfl, ?_, _, rfl,
        fun n hn => lane_readWindow (symRead s) hin hn⟩
      rw [busRead_symWindow t hk hs, readWindow_eq hin hlane]
    · rw [readWindow_beyond _ hout]
      exact ⟨congrArg (fun m => { s with symBuf := m }) (writeWindow_beyond s.symBuf v hout), rfl⟩
  · rw [busWrite_byteWindow s v hk hs, busRead_byteWindow s hk hs]
    intro t
    refine ⟨fun hin => ?_, fun hout => ?_⟩
    · have hlane : ∀ n < 4, byteRead t (4 * k + n) = lane v n := fun n hn =>
        byteRead_of_read? (read?_writeWindow_lane s.byteBuf v hin hn)
      refine ⟨hlane, fun i hi => read?_writeWindow_other s.byteBuf v hin hi, rfl, ?_, _, rfl,
        fun n hn => lane_readWindow (byteRead s) hin hn⟩
      rw [busRead_byteWindow t hk hs, readWindow_eq hin hlane]
    · rw [readWindow_beyond _ hout]
      exact ⟨congrArg (fun m => { s with byteBuf := m }) (writeWindow_beyond s.byteBuf v hout), rfl⟩

end Sys2Proof.Machine

namespace Sys2Proof.Machine

/-! ## Command words, code strings, texts and stream bits (30_encoding.md), and the frames of PACK and UNPACK

### The opcode map (R91, R92) -/

/-- OP is bits 3:0 of the word (R90). -/
theorem opField_toNat (w : Word) : (opField w).toNat = w.toNat % 16 := by
  simp [opField]

/-- RSV is the rest of the word (R90). -/
theorem rsvField_toNat (w : Word) : (rsvField w).toNat = w.toNat / 16 := by
  have hw := w.isLt
  rw [rsvField, BitVec.extractLsb'_toNat, Nat.shiftRight_eq_div_pow]
  omega

/-- The word of R92's second kind: RSV is not 0, or OP is 5 to 15. -/
def IllegalWord (w : Word) : Prop := w.toNat / 16 ≠ 0 ∨ 5 ≤ w.toNat % 16

/-- A word is illegal exactly where the well-formedness check refuses it. -/
theorem wellFormedWord_iff (w : Word) : wellFormedWord w = true ↔ ¬ IllegalWord w := by
  have hrsv : rsvField w = 0#28 ↔ w.toNat / 16 = 0 := by
    rw [← rsvField_toNat, ← BitVec.toNat_inj]
    rfl
  simp only [wellFormedWord, IllegalWord, Bool.and_eq_true, beq_iff_eq, decide_eq_true_eq, hrsv, opField_toNat]
  omega

/-- The laws of a command's word (R91, R93), over the commands. -/
theorem encodeDecode (i : Instr) : Laws.EncodeDecode.Statement i := by
  cases i with
  | nop => exact Laws.EncodeDecode.nop
  | pack => exact Laws.EncodeDecode.pack
  | unpack => exact Laws.EncodeDecode.unpack
  | ctClear => exact Laws.EncodeDecode.ctClear
  | sreset => exact Laws.EncodeDecode.sreset

theorem wellFormedWord_encode (i : Instr) : wellFormedWord (encode i) = true := (encodeDecode i).2.1

theorem decode_encode (i : Instr) : decode (encode i) = .ok i := (encodeDecode i).2.2

/-- RSV = 0 and OP at most 4 leave the five numbers of R91's rows. -/
theorem eq_encode_of_wellFormedWord {w : Word} (h : wellFormedWord w = true) : ∃ i, w = encode i := by
  rw [wellFormedWord_iff, IllegalWord] at h
  have hle : w.toNat ≤ 4 := by omega
  have hrow : ∀ n ≤ 4, ∃ i ∈ [Instr.nop, .pack, .unpack, .ctClear, .sreset], n = (encode i).toNat := by decide
  obtain ⟨i, -, hi⟩ := hrow w.toNat hle
  exact ⟨i, BitVec.eq_of_toNat_eq hi⟩

/-- The decoder rejects an illegal word, by RSV or else by OP (R92). -/
theorem decode_of_illegalWord {w : Word} (h : IllegalWord w) : ∃ r, decode w = .error r := by
  rw [IllegalWord, ← rsvField_toNat, ← opField_toNat] at h
  unfold decode
  split
  · exact ⟨_, rfl⟩
  · rename_i hrsv
    have hop : 5 ≤ (opField w).toNat := h.resolve_left fun hne => hne (congrArg BitVec.toNat (not_not.mp hrsv))
    obtain ⟨n, hn⟩ := Nat.exists_eq_add_of_le' hop
    rw [hn]
    exact ⟨_, rfl⟩

/-- Every word is the word of a command or illegal (R91, R92). -/
theorem encode_or_illegalWord (w : Word) : (∃ i, w = encode i) ∨ IllegalWord w := by
  by_cases h : wellFormedWord w = true
  · exact .inl (eq_encode_of_wellFormedWord h)
  · exact .inr (not_not.mp (mt (wellFormedWord_iff w).mpr h))

/-- A word decodes to a command exactly if it is the word of that command (R91). -/
theorem decode_eq_ok_iff (w : Word) (i : Instr) : decode w = .ok i ↔ w = encode i := by
  refine ⟨fun h => ?_, fun h => h ▸ decode_encode i⟩
  rcases encode_or_illegalWord w with ⟨j, rfl⟩ | hw
  · cases (decode_encode j).symm.trans h
    rfl
  · obtain ⟨r, hr⟩ := decode_of_illegalWord hw
    cases hr.symm.trans h

/-- Settles O1: the five words as rows of the table, the two others by the decoder's rejection of OP and of RSV. -/
theorem decodeReadsTheTableWords : Obligations.DecodeReadsTheTableWords :=
  ⟨decode_encode .nop, decode_encode .pack, decode_encode .unpack, decode_encode .ctClear, decode_encode .sreset,
    rfl, rfl, rfl, rfl⟩

/-- Settles O2: the third column is the encoder's, and the words that pass the check are the encoder's words. -/
theorem decodeSelectsExactlyTheTable : Obligations.DecodeSelectsExactlyTheTable := by
  refine ⟨fun w i => ?_, decode_encode, fun w => ⟨fun h => ?_, fun ⟨i, hi⟩ => ?_⟩⟩
  · cases i with
    | nop => exact decode_eq_ok_iff w .nop
    | pack => exact decode_eq_ok_iff w .pack
    | unpack => exact decode_eq_ok_iff w .unpack
    | ctClear => exact decode_eq_ok_iff w .ctClear
    | sreset => exact decode_eq_ok_iff w .sreset
  · obtain ⟨i, rfl⟩ := eq_encode_of_wellFormedWord h
    exact ⟨i, decode_encode i⟩
  · rw [(decode_eq_ok_iff w i).mp hi]
    exact wellFormedWord_encode i

/-! ### Illegal words (R168) -/

/-- An idle block accepts whatever word is written to CMD (R161). -/
theorem busWrite_cmd (w : Word) {s : State} (hs : s.status.busy = false) :
    busWrite .w32 0x004 w s = (accept w s, .okay) :=
  busWrite_idle 0x004 w s rfl (by decide) hs (by decide)

/-- While BUSY = 1 the engine's turn comes next both from the schedule and after it. -/
theorem step_of_engineNext {s : State} (hnext : EngineNext s) (hbusy : s.status.busy = true) :
    step s = engineStep (passTurn s) := by
  have hturn : nextTurn s = .engine := by
    rcases hnext with hnil | hhead
    · rw [nextTurn, hnil, hbusy]
      rfl
    · exact nextTurn_of_head hhead
  rw [step, hturn, takeTurn, passTurn_status, if_pos hbusy]

/-- The engine step of an illegal word is the error report ILLEGAL_CMD (R168). -/
theorem engineStep_illegal {s : State} {w : Word} (hp : s.pending = some w) (hw : IllegalWord w) :
    engineStep s = .next (errorReport none (.illegalCmd w) s) := by
  obtain ⟨r, hr⟩ := decode_of_illegalWord hw
  rcases engineStep_pending s w hp with ⟨i, hi, -⟩ | ⟨-, -, hx⟩
  · cases hr.symm.trans hi
  · exact hx

/-- Settles O3: the decoder's rejection, the idle CMD write, and the engine step of a word that is rejected. -/
theorem illegalWordCompletesWithError : Obligations.IllegalWordCompletesWithError := by
  intro w
  refine ⟨encode_or_illegalWord w, fun hw => ⟨decode_of_illegalWord hw, fun s => busWrite_cmd w, ?_⟩⟩
  intro s hnext hbusy hp
  rw [step_of_engineNext hnext hbusy, engineStep_illegal (s := passTurn s) hp hw]
  rfl

/-! ### Stream bits (R101) -/

/-- Settles O7: packed bytes expand to the string they were packed from, and a payload is its bytes expanded. -/
theorem streamBitsMostSignificantFirst : Obligations.StreamBitsMostSignificantFirst := by
  refine ⟨fun n k bs hlen hk => ⟨packBytes_length n bs, ?_⟩, fun s n k hk => ?_⟩
  · have hbit := flatMap_byteBits_getElem? (packBytes n bs) k
    have hbyte : k / 8 < (packBytes n bs).length := by
      rw [packBytes_length]
      omega
    rw [flatMap_byteBits_packBytes n bs hlen, List.getElem?_eq_getElem hbyte, Option.map_some] at hbit
    rw [List.getD_eq_getElem?_getD, List.getElem?_eq_getElem hbyte, List.getD_eq_getElem?_getD, hbit]
    rfl
  · have hbyte : k / 8 < n - 1 := by omega
    rw [payloadBits_eq, flatMap_byteBits_getElem?, List.getElem?_map, List.getElem?_range hbyte]
    rfl

/-! ### The frames of PACK and UNPACK (R93) -/

/-- A result that fits a buffer has its length, not a residue of it, in the 32 bits of a count register (R5). -/
theorem toNat_count {n d : Nat} (hn : n ≤ d) (hd : d ≤ 65536) : (BitVec.ofNat 32 n).toNat = n := by
  rw [BitVec.toNat_ofNat]
  omega

/-- A run of bytes from address 0 leaves every byte from its length on alone. -/
theorem read?_writeBytes_from_length (m : Memory) {l : List Byte} {j : Nat} (hj : l.length ≤ j) :
    (m.writeBytes 0 l).read? j = m.read? j := by
  rw [Memory.read?_writeBytes, if_neg (by omega)]

/-- Settles O30: the error report leaves BYTE_BUF alone, a success writes the result's bytes and no further. -/
theorem packFrame : Obligations.PackFrame := by
  intro s
  rcases execPack_cases s with ⟨e, -, hx⟩ | ⟨r, hr, hx⟩
  · exact ⟨_, hx, rfl, fun j _ _ => rfl⟩
  · obtain ⟨-, -, -, -, -, hfits⟩ := packRun_ok_inv s r hr
    refine ⟨_, hx, rfl, fun j hj hlegal => ?_⟩
    obtain ⟨-, -, -, -, -, hdepth, -⟩ := hlegal
    have hcount : r.bytes.length ≤ j := by
      rw [← toNat_count hfits hdepth]
      exact hj.resolve_left fun hne => hne rfl
    exact congrArg (Option.getD · _) (read?_writeBytes_from_length s.byteBuf hcount)

/-- Settles O37: the error report leaves SYM_BUF alone, a success writes the result's symbols and no further. -/
theorem unpackFrame : Obligations.UnpackFrame := by
  intro s
  rcases execUnpack_cases s with ⟨e, -, hx⟩ | ⟨r, hr, hx⟩
  · exact ⟨_, hx, rfl, fun i _ _ => rfl⟩
  · have hfits : r.symbols.length ≤ s.params.symDepth := unpackRun_ok_length hr
    refine ⟨_, hx, rfl, fun i hi hlegal => ?_⟩
    obtain ⟨-, -, hdepth, -⟩ := hlegal
    have hcount : r.symbols.length ≤ i := by
      rw [← toNat_count hfits hdepth]
      exact hi.resolve_left fun hne => hne rfl
    exact congrArg (Option.getD · _) (read?_writeBytes_from_length s.symBuf hcount)

/-! ### Code strings (R104) -/

/-- A further digit is the new least significant one. -/
theorem codeWord_concat (c : Bits) (b : Bool) :
    codeWord (c ++ [b]) = (codeWord c <<< 1) ||| (BitVec.ofBool b).setWidth 32 := by
  rw [codeWord, List.foldl_append]
  rfl

/-- Bit i of CT_CODE is digit i of the string from its end (R104). -/
theorem codeWord_getLsbD (c : Bits) {i : Nat} (hi : i < 32) : (codeWord c).getLsbD i = c.reverse.getD i false := by
  induction c using List.reverseRecOn generalizing i with
  | nil => simp [codeWord]
  | append_singleton c b ih =>
    rw [codeWord_concat, List.reverse_append, List.reverse_singleton, List.singleton_append]
    cases i with
    | zero => simp
    | succ i =>
      have hlow : i < 32 := by omega
      simpa [hi, hlow] using ih hlow

/-- The low bits of CT_CODE, first digit first, are the string (R9, R104). -/
theorem codeDigits_codeWord {c : Bits} (hc : c.length ≤ 32) : codeDigits c.length (codeWord c) = c := by
  refine List.ext_getElem (codeDigits_length _ _) fun j hj hjc => ?_
  have hlast : c.length - 1 - j < c.reverse.length := by
    rw [List.length_reverse]
    omega
  rw [List.getElem_eq_iff, codeDigits_getElem? _ _ j hjc, codeWord_getLsbD c (by omega), List.getD_eq_getElem _ _ hlast,
    List.getElem_reverse]
  congr 2
  omega

/-- Bit 31 of a string's CT_META word asks for VALID (R104). -/
theorem metaWordOf_valid (c : Bits) : (metaWordOf c).getLsbD 31 = true := by
  simp [metaWordOf]

/-- Bits 5:0 of a string's CT_META word are its length (R104). -/
theorem metaWordOf_len {c : Bits} (hc : c.length ≤ 32) : ((metaWordOf c).extractLsb' 0 6).toNat = c.length := by
  have hlow : (metaWordOf c).extractLsb' 0 6 = BitVec.ofNat 6 c.length := by
    ext i hi
    have hhigh : (0x80000000#32).getLsbD i = false := (by decide : ∀ i < 6, (0x80000000#32).getLsbD i = false) i hi
    have hword : i < 32 := by omega
    rw [BitVec.getElem_extractLsb', Nat.zero_add, metaWordOf, BitVec.getLsbD_or, hhigh, Bool.false_or,
      ← BitVec.getLsbD_eq_getElem, BitVec.getLsbD_ofNat, BitVec.getLsbD_ofNat, decide_eq_true hi,
      decide_eq_true hword]
  rw [hlow, BitVec.toNat_ofNat]
  omega

/-- The length of a code string the block can hold (R105). -/
theorem wellFormedCode_iff (c : Bits) : wellFormedCode c = true ↔ 1 ≤ c.length ∧ c.length ≤ 32 := by
  rw [wellFormedCode, Bool.and_eq_true, decide_eq_true_eq, decide_eq_true_eq, Config.maxCodeLen]

/-- An entry after the two writes of `ldct` (R41, R42). -/
def entryLoaded (code : Bits) (e : CtEntry) : CtEntry := entrySetMeta (metaWordOf code) (entrySetCode (codeWord code) e)

theorem entryLoaded_valid {code : Bits} (h : wellFormedCode code = true) (e : CtEntry) :
    (entryLoaded code e).valid = true := by
  obtain ⟨hpos, hmax⟩ := (wellFormedCode_iff code).mp h
  rw [entryLoaded, entrySetMeta_valid, metaWordOf_len hmax]
  exact ⟨metaWordOf_valid code, hpos, hmax⟩

/-- The engine reads a loaded entry as the string it was loaded from (R9). -/
theorem codeBits_of_entryLoaded {s : State} {c : Byte} {code : Bits} {e : CtEntry} (h : wellFormedCode code = true)
    (he : ctGet s.ct c = entryLoaded code e) : codeBits s c = code := by
  obtain ⟨-, hmax⟩ := (wellFormedCode_iff code).mp h
  have hlen : (ctLen s c).toNat = code.length := by
    rw [ctLen, he]
    exact metaWordOf_len hmax
  have hcode : ctCode s c = codeWord code := by
    rw [ctCode, he]
    rfl
  rw [codeBits, hlen, hcode, codeDigits_codeWord hmax]

/-! ### Host programs (R110, R111) -/

/-- The host's turn at the write `wr` of an offset of the block (R110). The state is also given as `t`, so that the
turns of a program can be chained. -/
theorem hostTurn_wr {s t u : State} {a : Nat} {v : Word} {more : List HostOp} (hst : s = t)
    (hp : t.prog = wr t.params a v :: more) (ha : a < 0x40000) (hw : busWrite .w32 a v t = (u, .okay)) :
    hostTurn s = { u with prog := more, received := .okay :: t.received } := by
  obtain ⟨-, hwrite, -⟩ := hostOperations t .w32 (t.params.blockBase + a) v more
  rw [hst, hwrite hp a ha rfl, hw]

/-- Of two writes of one entry the second stays. -/
theorem ctSet_ctSet (t : CodeTable) (c : Byte) (d e : CtEntry) : ctSet (ctSet t c d) c e = ctSet t c e :=
  Vector.set_set ..

/-- What the two writes of `ldct` leave (R111): a loaded entry. -/
theorem hostTurn_ldct {s : State} {c : Byte} {code : Bits} {more : List HostOp} (hs : s.status.busy = false)
    (hp : s.prog = ldct s.params c code ++ more) :
    hostTurn (hostTurn s) = { s with
      ct := ctSet s.ct c (entryLoaded code (ctGet s.ct c))
      prog := more
      received := .okay :: .okay :: s.received } := by
  have hc := c.isLt
  have hcode : offCtCode c < 0x40000 := by
    rw [offCtCode]
    omega
  have hmeta : offCtMeta c < 0x40000 := by
    rw [offCtMeta]
    omega
  have hfirst := hostTurn_wr rfl hp hcode (busWrite_ctCode s c (codeWord code) hs)
  rw [hostTurn_wr (more := more) hfirst rfl hmeta (busWrite_ctMeta _ c (metaWordOf code) hs)]
  simp only [ctGet_ctSet_same, ctSet_ctSet, entryLoaded]

/-- Settles O5: the two turns load the entry, and a loaded entry reads as its string. -/
theorem loadedCodeReadsBack : Obligations.LoadedCodeReadsBack := by
  intro s c code more hcode hs hp
  rw [hostTurn_ldct hs hp]
  intro t
  have hentry : ctGet t.ct c = entryLoaded code (ctGet s.ct c) := ctGet_ctSet_same _ _ _
  refine ⟨?_, codeBits_of_entryLoaded hcode hentry, fun d hd => ctGet_ctSet_other _ _ _ _ hd, rfl⟩
  rw [ctValid, hentry]
  exact entryLoaded_valid hcode _

/-! ### Texts (R111) -/

/-- Lane n of word k of a text is symbol 4k+n: the word is the read of a window over the text. -/
theorem lane_textWord (text : List Byte) (k : Nat) {n : Nat} (hn : n < 4) :
    lane (textWord text k) n = text.getD (4 * k + n) 0#8 := by
  have hread : textWord text k = readWindow (4 * k + 1) (fun i => text.getD i 0#8) k :=
    (if_pos (Nat.lt_succ_self _)).symm
  rw [hread, lane_readWindow _ (Nat.lt_succ_self _) hn]

/-- A buffer of depth d after the first n words of a text are written to its window. -/
def textLoaded (d : Nat) (m : Memory) (text : List Byte) : Nat → Memory
  | 0 => m
  | n + 1 => writeWindow d (textLoaded d m text n) n (textWord text n)

/-- The bytes of the words written are the text's, the last word's missing lanes 0. -/
theorem read?_textLoaded {d : Nat} (m : Memory) (text : List Byte) {n i : Nat} (hn : 4 * n < d + 4) (hi : i < 4 * n) :
    (textLoaded d m text n).read? i = some (text.getD i 0#8) := by
  induction n with
  | zero => omega
  | succ n ih =>
    have hin : 4 * n < d := by omega
    rw [textLoaded]
    by_cases hlast : i < 4 * n
    · rw [read?_writeWindow_other _ _ hin (.inl hlast), ih (by omega) hlast]
    · obtain ⟨j, rfl⟩ := Nat.exists_eq_add_of_le (Nat.le_of_not_lt hlast)
      have hj : j < 4 := by omega
      rw [read?_writeWindow_lane _ _ hin hj, lane_textWord text n hj]

/-- The first n writes of `ldsym` (R111). -/
def textWrites (p : Params) (text : List Byte) (n : Nat) : List HostOp :=
  (List.range n).map fun k => wr p (offSymBuf (4 * k)) (textWord text k)

theorem ldsym_eq (p : Params) (text : List Byte) :
    ldsym p text =
      textWrites p text ((text.length + 3) / 4) ++ [wr p offSymCount (BitVec.ofNat 32 text.length)] := rfl

theorem textWrites_succ (p : Params) (text : List Byte) (n : Nat) :
    textWrites p text (n + 1) = textWrites p text n ++ [wr p (offSymBuf (4 * n)) (textWord text n)] := by
  rw [textWrites, List.range_succ, List.map_append]
  rfl

/-- The write of SYM_COUNT while idle (R27). -/
theorem busWrite_symCount (s : State) (v : Word) (hs : s.status.busy = false) :
    busWrite .w32 0x010 v s = ({ s with symCount := v }, .okay) :=
  busWrite_idle 0x010 v s rfl (by decide) hs (by decide)

/-- As many host turns as there are words load them. -/
theorem hostTurn_textWrites {s : State} {text : List Byte} {n : Nat} {more : List HostOp} (hn : n ≤ 16384)
    (hs : s.status.busy = false) (hp : s.prog = textWrites s.params text n ++ more) :
    hostTurn^[n] s = { s with
      symBuf := textLoaded s.params.symDepth s.symBuf text n
      prog := more
      received := List.replicate n .okay ++ s.received } := by
  induction n generalizing more with
  | zero =>
    have hmore : s.prog = more := hp
    rw [← hmore]
    rfl
  | succ n ih =>
    rw [textWrites_succ, List.append_assoc] at hp
    have ha : offSymBuf (4 * n) < 0x40000 := by
      rw [offSymBuf]
      omega
    have hk : n < 16384 := by omega
    rw [Function.iterate_succ_apply',
      hostTurn_wr (ih (by omega) hp) rfl ha (busWrite_symWindow _ (textWord text n) hk hs)]
    rfl

/-- Settles O6: the words' turns load the text, and the last turn its length. -/
theorem loadedTextReadsBack : Obligations.LoadedTextReadsBack := by
  intro s text more hlegal hlen hs hp
  obtain ⟨hmod, -, hdepth, -⟩ := hlegal
  have hwords : 4 * ((text.length + 3) / 4) < s.params.symDepth + 4 := by omega
  rw [ldsym_eq, List.append_assoc] at hp
  have hwritten := hostTurn_textWrites (by omega) hs hp
  rw [Function.iterate_succ_apply', hostTurn_wr hwritten rfl (by decide) (busWrite_symCount _ _ hs)]
  intro t
  refine ⟨rfl, toNat_count hlen hdepth, fun i hi => ?_, rfl, rfl, rfl, rfl, rfl⟩
  exact symRead_of_read? (read?_textLoaded s.symBuf text hwords (by omega))

end Sys2Proof.Machine

namespace Sys2Proof.Machine

/-! ## PACK (40_pack.md) -/

/-! ### Padding (R122) -/

theorem padLen_natural (n : Nat) : padLen n false = (8 - n % 8) % 8 := rfl

theorem padLen_reference (n : Nat) : padLen n true = 8 - n % 8 := rfl

/-- Settles O9: both rules are read off `padLen`, and both complete the last byte. -/
theorem paddingLengths : Obligations.PaddingLengths := by
  intro L
  have hnatural := padLen_natural L
  have hreference := padLen_reference L
  refine ⟨hnatural, hreference, ?_, ?_, padLen_le L true, padLen_aligns L false, padLen_aligns L true, ?_⟩ <;> omega

/-! ### What PACK reads (R120, R123, R127) -/

/-- The code bits of the input, index by index. -/
theorem packCodeBits_eq (s : State) :
    packCodeBits s = (List.range s.symCount.toNat).flatMap fun i => codeBits s (symRead s i) :=
  List.flatMap_map (l := List.range s.symCount.toNat) ..

theorem packCodeBits_length (s : State) :
    (packCodeBits s).length = ((List.range s.symCount.toNat).map fun i => (ctLen s (symRead s i)).toNat).sum := by
  simp only [packCodeBits_eq, List.length_flatMap, codeBits_length]

/-- A statement about every input symbol, index by index. -/
theorem forall_mem_packInput {s : State} {P : Byte → Prop} :
    (∀ c ∈ packInput s, P c) ↔ ∀ i < s.symCount.toNat, P (symRead s i) := by
  simp [packInput]

/-- The search reads nothing but VALID of its symbols. -/
theorem firstMissing_congr {s t : State} {l : List Byte} (h : ∀ c ∈ l, ctValid s c = ctValid t c) (k : Nat) :
    firstMissing s k l = firstMissing t k l := by
  induction l generalizing k with
  | nil => rfl
  | cons c l ih =>
    obtain ⟨hc, hl⟩ := List.forall_mem_cons.mp h
    rw [firstMissing, firstMissing, hc, ih hl]

/-- The code of a valid symbol is its LEN and the low LEN bits of its CODE. -/
theorem codeBits_of_sameEntry {s t : State} {c : Byte} (h : SameEntry s t c) (hv : ctValid s c = true) :
    codeBits s c = codeBits t c := by
  obtain ⟨hlen, hcode⟩ := h.2 hv
  rw [codeBits, codeBits, ← hlen]
  exact codeDigits_congr _ _ _ hcode

/-- R121: the count is checked before anything else. -/
theorem packRun_of_badCount {s : State} (h : s.params.symDepth < s.symCount.toNat) :
    packRun s = .error (.badCount s.symCount) := if_pos h

/-- With the count in range, a missing code is reported before the output size is looked at (R184). -/
theorem packRun_of_missing {s : State} {i : Nat} {c : Byte} (hn : s.symCount.toNat ≤ s.params.symDepth)
    (h : firstMissing s 0 (packInput s) = some (i, c)) : packRun s = .error (.missingCode c i) := by
  rw [packRun, if_neg (Nat.not_lt.mpr hn), h]

/-- R127, for the run: it is a function of the depths, PADMODE, SYM_COUNT, the input symbols and their entries. -/
theorem packRun_congr {s t : State} (hsym : s.params.symDepth = t.params.symDepth)
    (hbyte : s.params.byteDepth = t.params.byteDepth) (hmode : s.config.padmode = t.config.padmode)
    (hcount : s.symCount = t.symCount)
    (hinput : ∀ i < s.symCount.toNat, symRead s i = symRead t i ∧ SameEntry s t (symRead s i)) :
    packRun s = packRun t := by
  have hsame : packInput s = packInput t := by
    rw [packInput, packInput, ← hcount]
    exact List.map_congr_left fun i hi => (hinput i (List.mem_range.mp hi)).1
  have hentry : ∀ c ∈ packInput s, SameEntry s t c := forall_mem_packInput.mpr fun i hi => (hinput i hi).2
  have hsearch : firstMissing s 0 (packInput s) = firstMissing t 0 (packInput t) :=
    hsame ▸ firstMissing_congr (fun c hc => (hentry c hc).1) 0
  rcases Nat.lt_or_ge s.params.symDepth s.symCount.toNat with hn | hn
  · rw [packRun_of_badCount hn, packRun_of_badCount (hsym ▸ hcount ▸ hn), hcount]
  · have hn' : t.symCount.toNat ≤ t.params.symDepth := hsym ▸ hcount ▸ hn
    cases hm : firstMissing s 0 (packInput s) with
    | some x => rw [packRun_of_missing hn hm, packRun_of_missing hn' (hsearch ▸ hm)]
    | none =>
      have hvalid := (firstMissing_none s 0 _).mp hm
      have hvalid' := (firstMissing_none t 0 _).mp (hsearch ▸ hm)
      have hbits : packCodeBits s = packCodeBits t := by
        rw [packCodeBits, packCodeBits, ← hsame]
        exact List.flatMap_congr fun c hc => codeBits_of_sameEntry (hentry c hc) (hvalid c hc)
      rw [packRun_of_valid s hn hvalid, packRun_of_valid t hn' hvalid', hbits, hmode, hbyte]

/-! ### How PACK ends (R124, R125, R185) -/

theorem exec_pack_of_error {s : State} {e : CmdError} (h : packRun s = .error e) :
    exec .pack s = .next (errorReport (some .pack) e s) := by
  show execPack s = _
  rw [execPack, h]

theorem exec_pack_of_ok {s : State} {r : PackOut} (h : packRun s = .ok r) :
    exec .pack s = .next (complete 0#4 0#32 (packStore r s)) := by
  show execPack s = _
  rw [execPack, h]

/-- A PACK that completes with ERR = 0 stored its run's result. -/
theorem exec_pack_success {s t : State} (hx : exec .pack s = .next t) (herr : t.status.err = 0#4) :
    ∃ r, packRun s = .ok r ∧ t = complete 0#4 0#32 (packStore r s) := by
  rcases execPack_cases s with ⟨e, -, he⟩ | ⟨r, hr, ho⟩
  · cases he.symm.trans hx
    exact absurd herr (errCode_ne_zero e)
  · cases ho.symm.trans hx
    exact ⟨r, hr, rfl⟩

/-- Settles O27: the count's check is the first, and its error report is the whole effect. -/
theorem packChecksTheCountFirst : Obligations.PackChecksTheCountFirst :=
  fun _ hn => ⟨_, exec_pack_of_error (packRun_of_badCount hn), rfl⟩

/-! ### The stream in BYTE_BUF (R101, R123, R124) -/

/-- After a successful PACK, BYTE_BUF holds the result's bytes from address 0. -/
theorem byteRead_packStore {r : PackOut} (s : State) {j : Nat} (hj : j < r.bytes.length) :
    byteRead (complete 0#4 0#32 (packStore r s)) j = r.bytes[j] := by
  refine byteRead_of_read? ?_
  rw [complete_byteBuf, packStore_byteBuf, Memory.read?_writeBytes, if_pos (by omega), Nat.sub_zero,
    List.getElem?_eq_getElem hj]

/-- The stream bits after a successful PACK are the bits of the result's bytes after the header. -/
theorem streamBit_packStore {r : PackOut} (s : State) {k : Nat} (hk : k < (r.bytes.tail.flatMap byteBits).length) :
    streamBit (complete 0#4 0#32 (packStore r s)) k = (r.bytes.tail.flatMap byteBits).getD k false := by
  rw [flatMap_byteBits_length, List.length_tail] at hk
  have hbyte : k / 8 + 1 < r.bytes.length := by omega
  rw [streamBit, Nat.add_comm, byteRead_packStore s hbyte, List.getD_eq_getElem?_getD, flatMap_byteBits_getElem?,
    List.getElem?_tail, List.getElem?_eq_getElem hbyte]
  rfl

/-- `t` holds the result of packing `bits` under padding rule `mode`: the registers, and the stream in BYTE_BUF. -/
structure HoldsPacked (bits : Bits) (mode : Bool) (t : State) : Prop where
  byteCount : t.byteCount.toNat = 1 + (bits.length + padLen bits.length mode) / 8
  resPad : t.resPad.toNat = padLen bits.length mode
  resNbits : t.resNbits.toNat = bits.length
  header : byteRead t 0 = t.resPad
  stream : ∀ k < bits.length + padLen bits.length mode,
    streamBit t k = (bits ++ List.replicate (padLen bits.length mode) false).getD k false

/-- A successful PACK leaves the packed code bits of its input. -/
theorem holdsPacked_of_packRun {s : State} {r : PackOut} (hlegal : s.params.Legal) (h : packRun s = .ok r) :
    HoldsPacked (packCodeBits s) s.config.padmode (complete 0#4 0#32 (packStore r s)) := by
  obtain ⟨-, -, -, -, -, hdepth, -⟩ := hlegal
  obtain ⟨-, -, hbytes, hpad, hnbits, hfits⟩ := packRun_ok_inv s r h
  have hlen := packStream_length (packCodeBits s) s.config.padmode
  have hpayload := packStream_payload (packCodeBits s) s.config.padmode
  have hle := padLen_le (packCodeBits s).length s.config.padmode
  rw [← hbytes] at hlen hpayload
  refine ⟨?_, ?_, ?_, ?_, fun k hk => ?_⟩
  · rw [complete_byteCount, packStore_byteCount, toNat_count hfits hdepth, hlen]
  · rw [complete_resPad, packStore_resPad, hpad, BitVec.toNat_ofNat]
    omega
  · rw [complete_resNbits, packStore_resNbits, hnbits, BitVec.toNat_ofNat]
    omega
  · rw [byteRead_packStore s (by omega), complete_resPad, packStore_resPad, hpad]
    simp only [hbytes, packStream, List.getElem_cons_zero]
  · rw [streamBit_packStore s (by simpa [hpayload] using hk), hpayload]

/-- Settles O26: the run succeeds under these conditions and leaves the packed code bits, which are those of the
statement by `packCodeBits_eq`. -/
theorem packWritesTheStream : Obligations.PackWritesTheStream := by
  intro s hlegal hn hvalid bits p n hfits
  have hbits : packCodeBits s = bits := packCodeBits_eq s
  have hlen : (packStream bits s.config.padmode).length = n := packStream_length bits s.config.padmode
  have hrun := packRun_of_valid s hn (forall_mem_packInput.mpr hvalid)
  rw [hbits, hlen, if_neg (Nat.not_lt.mpr hfits)] at hrun
  have hpacked := holdsPacked_of_packRun hlegal hrun
  rw [hbits] at hpacked
  exact ⟨_, exec_pack_of_ok hrun, rfl, rfl, hpacked.byteCount, hpacked.resPad, hpacked.resNbits,
    hpacked.header ▸ hpacked.resPad, hpacked.stream, fun j hj => read?_writeBytes_from_length s.byteBuf (hlen ▸ hj)⟩

/-! ### The arithmetic of a success (R128) -/

/-- A valid entry's LEN is at most 32 (R40, R42). -/
theorem ctLen_le_of_valid {s : State} (h : HbpInv s) {c : Byte} (hv : ctValid s c = true) : (ctLen s c).toNat ≤ 32 := by
  obtain ⟨l, hl, -, hle⟩ := h.valid_has_length c hv
  rw [ctLen, hl]
  exact hle

/-- Where every input symbol is valid, the input has at most 32 code bits a symbol. -/
theorem packCodeBits_length_le {s : State} (h : HbpInv s) (hvalid : ∀ c ∈ packInput s, ctValid s c = true) :
    (packCodeBits s).length ≤ 32 * s.symCount.toNat := by
  have hle := List.sum_le_card_nsmul ((packInput s).map fun c => (ctLen s c).toNat) 32
    (List.forall_mem_map.mpr fun c hc => ctLen_le_of_valid h (hvalid c hc))
  simpa [packCodeBits, List.length_flatMap, Nat.mul_comm] using hle

/-- Settles O31: a success leaves the packed code bits, and the rest is the arithmetic of `padLen`. -/
theorem packArithmetic : Obligations.PackArithmetic := by
  intro s t hinv hx herr
  obtain ⟨r, hr, rfl⟩ := exec_pack_success hx herr
  obtain ⟨hn, hvalid, -⟩ := packRun_ok_inv s r hr
  obtain ⟨hcount, hpad, hnbits, hheader, hstream⟩ := holdsPacked_of_packRun hinv.params_legal hr
  have hbound := packCodeBits_length_le hinv hvalid
  have haligned := padLen_aligns (packCodeBits s).length s.config.padmode
  rw [hcount, hpad, hnbits]
  refine ⟨packCodeBits_length s, by omega, fun hmode => ?_, fun hmode => ?_, hheader, haligned, rfl, fun hmode => ?_,
    fun hmode => ?_, fun k hlow hk => ?_⟩
  · rw [hmode, padLen_natural]
    omega
  · rw [hmode, padLen_reference]
    omega
  · rw [hmode, padLen_natural]
    omega
  · rw [hmode, padLen_reference]
    omega
  · rw [hstream k hk, List.getD_append_right _ _ _ _ hlow, List.getD_replicate _ (by omega)]

/-- Settles O32: the run is the same, and the outcome is made of the run. -/
theorem packReadsOnlyItsOperands : Obligations.PackReadsOnlyItsOperands := by
  intro s₁ s₂ t₁ t₂ hsym hbyte hmode hcount hinput hx₁ hx₂
  have hrun := packRun_congr hsym hbyte hmode hcount hinput
  cases hr : packRun s₁ with
  | error e =>
    cases (exec_pack_of_error hr).symm.trans hx₁
    cases (exec_pack_of_error (hrun ▸ hr)).symm.trans hx₂
    exact ⟨rfl, rfl, rfl, rfl, rfl, fun herr => absurd herr (errCode_ne_zero e)⟩
  | ok r =>
    cases (exec_pack_of_ok hr).symm.trans hx₁
    cases (exec_pack_of_ok (hrun ▸ hr)).symm.trans hx₂
    refine ⟨rfl, rfl, rfl, rfl, rfl, fun _ j hj => ?_⟩
    have hlen : j < r.bytes.length := hj.trans_le (BitVec.toNat_ofNat .. ▸ Nat.mod_le _ _)
    rw [byteRead_packStore s₁ hlen, byteRead_packStore s₂ hlen]

end Sys2Proof.Machine

namespace Sys2Proof.Machine

/-! ## UNPACK (41_unpack.md)

### Match (R144) -/

theorem mem_allSymbols (c : Byte) : c ∈ allSymbols :=
  List.mem_map.mpr ⟨c.toNat, List.mem_range.mpr c.isLt, BitVec.ofNat_toNat 8 c⟩

/-- A search of the symbols finds the least one that passes. -/
theorem find?_allSymbols_eq_some {p : Byte → Bool} {c : Byte} :
    allSymbols.find? p = some c ↔ p c = true ∧ ∀ d : Byte, d.toNat < c.toNat → ¬ p d = true := by
  rw [allSymbols, List.find?_map, Option.map_eq_some_iff]
  constructor
  · rintro ⟨i, hi, rfl⟩
    obtain ⟨hp, hmem, hleast⟩ := List.find?_range_eq_some.mp hi
    have hval : (BitVec.ofNat 8 i).toNat = i := Nat.mod_eq_of_lt (List.mem_range.mp hmem)
    exact ⟨hp, fun d hd => by simpa using hleast d.toNat (hval ▸ hd)⟩
  · rintro ⟨hp, hleast⟩
    refine ⟨c.toNat, List.find?_range_eq_some.mpr ⟨by simpa using hp, List.mem_range.mpr c.isLt, fun j hj => ?_⟩,
      BitVec.ofNat_toNat 8 c⟩
    have hval : (BitVec.ofNat 8 j).toNat = j := Nat.mod_eq_of_lt (hj.trans c.isLt)
    simpa using hleast (BitVec.ofNat 8 j) (hval.symm ▸ hj)

/-- `c` has a valid entry whose code is `acc` (R144). -/
def HasCode (s : State) (acc : Bits) (c : Byte) : Prop :=
  ctValid s c = true ∧ (ctLen s c).toNat = acc.length ∧ codeBits s c = acc

/-- The length need not be compared: a code has LEN digits (R9). -/
theorem hasCode_iff {s : State} {acc : Bits} {c : Byte} :
    HasCode s acc c ↔ ctValid s c = true ∧ codeBits s c = acc := by
  refine and_congr_right fun _ => and_iff_right_of_imp ?_
  rintro rfl
  rw [codeBits_length]

theorem matchCode_eq_some_iff {s : State} {acc : Bits} {c : Byte} :
    matchCode s acc = some c ↔ HasCode s acc c ∧ ∀ d : Byte, d.toNat < c.toNat → ¬ HasCode s acc d := by
  simp only [matchCode, find?_allSymbols_eq_some, HasCode, Bool.and_eq_true, beq_iff_eq]

theorem matchCode_eq_none_iff {s : State} {acc : Bits} : matchCode s acc = none ↔ ∀ c, ¬ HasCode s acc c := by
  simp only [matchCode, List.find?_eq_none, mem_allSymbols, true_implies, HasCode, Bool.and_eq_true, beq_iff_eq]

/-- Settles O10: Match is the search of the symbols, least first, for one with that code. -/
theorem matchIsTheLeastSymbol : Obligations.MatchIsTheLeastSymbol := fun s acc =>
  ⟨fun _ => matchCode_eq_some_iff.trans (by simp only [HasCode, and_assoc]), matchCode_eq_none_iff⟩

/-- Match reads nothing of an entry but VALID, LEN and the low LEN bits of CODE (R149). -/
theorem matchCode_congr {s t : State} (h : ∀ c, SameEntry s t c) : matchCode s = matchCode t := by
  have hcode : ∀ acc c, HasCode s acc c ↔ HasCode t acc c := fun acc c => by
    rw [hasCode_iff, hasCode_iff, ← (h c).1]
    exact and_congr_right fun hv => by rw [codeBits_of_sameEntry (h c) hv]
  funext acc
  exact Option.ext fun c => by simp only [matchCode_eq_some_iff, hcode]

/-- The same table in the same era gives the same entries. -/
theorem sameEntry_of_ct_eq {s t : State} (hct : s.ct = t.ct) (hera : s.era = t.era) (c : Byte) : SameEntry s t c := by
  simp [SameEntry, ctValid, ctLen, ctCode, hct, hera]

/-- No code has more than 32 digits, so a longer accumulator matches nothing (R148). -/
theorem matchCode_of_long {s : State} {acc : Bits} (hinv : HbpInv s) (hacc : 32 < acc.length) :
    matchCode s acc = none := by
  refine matchCode_eq_none_iff.mpr fun c ⟨hv, hlen, _⟩ => ?_
  have := ctLen_le_of_valid hinv hv
  omega

/-- Settles O38: the accumulator only grows, and none that long matches. -/
theorem longAccumulatorNeverMatches : Obligations.LongAccumulatorNeverMatches := by
  intro s k start acc rest hinv hacc
  induction rest generalizing k acc with
  | nil =>
    have hne : acc ≠ [] := List.ne_nil_of_length_pos (by omega)
    rw [scan_nil, if_neg hne]
  | cons b rest ih =>
    have hlong : 32 < (acc ++ [b]).length := by simp; omega
    rw [scan, matchCode_of_long hinv hlong]
    exact ih _ _ hlong

/-! ### The residual (R143) -/

theorem residualBits_length (s : State) (n p : Nat) : (residualBits s n p).length = 8 * (n - 1) - p := by
  rw [residualBits, List.length_take, payloadBits_length]
  omega

/-- The residual's bits are stream bits, from the first on. -/
theorem residualBits_getElem? (s : State) {n p k : Nat} (hk : k < 8 * (n - 1) - p) :
    (residualBits s n p)[k]? = some (streamBit s k) := by
  rw [residualBits, List.getElem?_take_of_lt hk]
  exact streamBitsMostSignificantFirst.2 s n k (by omega)

/-- Settles O8: length and bits of the residual, and a residual of no bits is empty. -/
theorem residualDropsThePadding : Obligations.ResidualDropsThePadding := by
  intro s n p
  refine ⟨?_, fun k hk => residualBits_getElem? s hk, fun hp => ?_⟩
  · rw [residualBits_length, Nat.zero_max]
  · exact List.eq_nil_of_length_eq_zero (by rw [residualBits_length]; omega)

@[simp] theorem residualOf_length (s : State) : (residualOf s).length = residualLength s := by simp [residualOf]

theorem residualOf_getElem? (s : State) {k : Nat} (hk : k < residualLength s) :
    (residualOf s)[k]? = some (streamBit s k) := by
  rw [residualOf, List.getElem?_map, List.getElem?_range hk]
  rfl

/-- What UNPACK scans is the residual of the count and the header. -/
theorem residualBits_eq_residualOf (s : State) :
    residualBits s s.byteCount.toNat (byteRead s 0).toNat = residualOf s := by
  have hlen := residualBits_length s s.byteCount.toNat (byteRead s 0).toNat
  refine List.ext_getElem? fun k => ?_
  rcases Nat.lt_or_ge k (residualLength s) with hk | hk
  · rw [residualBits_getElem? s hk, residualOf_getElem? s hk]
  · rw [List.getElem?_eq_none (hlen.trans_le hk), List.getElem?_eq_none ((residualOf_length s).trans_le hk)]

theorem byteRead_congr {s t : State} (hera : s.era = t.era) {j : Nat} (h : s.byteBuf.read? j = t.byteBuf.read? j) :
    byteRead s j = byteRead t j := by
  rw [byteRead, byteRead, h, hera]

/-- The residual is read from the bytes below BYTE_COUNT alone. -/
theorem residualOf_congr {s t : State} (hn : 1 ≤ s.byteCount.toNat) (hcount : s.byteCount = t.byteCount)
    (hbytes : ∀ j < s.byteCount.toNat, byteRead s j = byteRead t j) : residualOf s = residualOf t := by
  have hlen : residualLength s = residualLength t := by
    rw [residualLength, residualLength, hbytes 0 hn, hcount]
  rw [residualOf, residualOf, ← hlen]
  refine List.map_congr_left fun k hk => ?_
  have hk : k < 8 * (s.byteCount.toNat - 1) - (byteRead s 0).toNat := List.mem_range.mp hk
  rw [streamBit, streamBit, hbytes _ (by omega)]

/-- The residual of a packed stream is the code bits that were packed. -/
theorem HoldsPacked.residualOf_eq {bits : Bits} {mode : Bool} {t : State} (h : HoldsPacked bits mode t) :
    residualOf t = bits := by
  have haligned := padLen_aligns bits.length mode
  have hlen : residualLength t = bits.length := by
    rw [residualLength, h.byteCount, h.header, h.resPad]
    omega
  refine List.ext_getElem? fun k => ?_
  rcases Nat.lt_or_ge k bits.length with hk | hk
  · rw [residualOf_getElem? t (hlen ▸ hk), h.stream k (by omega), List.getD_append _ _ _ _ hk,
      List.getD_eq_getElem _ _ hk, List.getElem?_eq_getElem hk]
  · rw [List.getElem?_eq_none (by rw [residualOf_length]; omega), List.getElem?_eq_none hk]

/-! ### The greedy decomposition (R145) -/

theorem noMatch_nil (s : State) : NoMatch s [] := fun _ hpos hle => absurd (hpos.trans hle) (by decide)

/-- Every bit string has a decomposition, and the scan answers it. -/
theorem exists_greedy_scan (s : State) (bits : Bits) : ∃ out tail, Greedy s bits out tail ∧
    scan s 0 0 [] bits = if tail = [] then .ok out else .error (bits.length - tail.length) := by
  simpa using scan_spec s bits 0 [] (Nat.le_refl 0) (noMatch_nil s)

/-- Where a first match exists, something matches. -/
theorem FirstMatch.not_noMatch {s : State} {bits : Bits} {m : Nat} {c : Byte} (h : FirstMatch s bits m c) :
    ¬ NoMatch s bits := by
  obtain ⟨hpos, hle, hmatch, -⟩ := h
  intro hno
  cases (hno m hpos hle).symm.trans hmatch

/-- The first match is one length and one symbol. -/
theorem FirstMatch.unique {s : State} {bits : Bits} {m n : Nat} {c d : Byte} (h : FirstMatch s bits m c)
    (h' : FirstMatch s bits n d) : m = n ∧ c = d := by
  obtain ⟨hm, -, hc, hfirst⟩ := h
  obtain ⟨hn, -, hd, hfirst'⟩ := h'
  rcases Nat.lt_trichotomy m n with hlt | rfl | hlt
  · cases (hfirst' m hm hlt).symm.trans hc
  · exact ⟨rfl, Option.some.inj (hc.symm.trans hd)⟩
  · cases (hfirst n hn hlt).symm.trans hd

theorem Greedy.unique {s : State} {bits : Bits} {out out' : List Byte} {tail tail' : Bits}
    (h : Greedy s bits out tail) (h' : Greedy s bits out' tail') : out = out' ∧ tail = tail' := by
  induction h generalizing out' tail' with
  | rest tail hno =>
    cases h' with
    | rest => exact ⟨rfl, rfl⟩
    | emit _ _ _ _ _ hfirst => exact absurd hno hfirst.not_noMatch
  | emit bits m c out tail hfirst _ ih =>
    cases h' with
    | rest _ hno => exact absurd hno hfirst.not_noMatch
    | emit _ _ _ _ _ hfirst' more =>
      obtain ⟨rfl, rfl⟩ := hfirst.unique hfirst'
      obtain ⟨rfl, rfl⟩ := ih more
      exact ⟨rfl, rfl⟩

/-- Settles O34: the scan gives a decomposition, and the first match leaves no choice. -/
theorem greedyDecompositionIsUnique : Obligations.GreedyDecompositionIsUnique := by
  intro s bits
  obtain ⟨out, tail, hg, -⟩ := exists_greedy_scan s bits
  exact ⟨⟨out, tail, hg⟩, fun _ _ _ _ => Greedy.unique⟩

/-- The scan answers the decomposition. -/
theorem Greedy.scan_eq {s : State} {bits : Bits} {out : List Byte} {tail : Bits} (h : Greedy s bits out tail) :
    scan s 0 0 [] bits = if tail = [] then .ok out else .error (bits.length - tail.length) := by
  obtain ⟨out', tail', hg, hscan⟩ := exists_greedy_scan s bits
  obtain ⟨rfl, rfl⟩ := h.unique hg
  exact hscan

/-- Every symbol takes at least one bit. -/
theorem Greedy.length_le {s : State} {bits : Bits} {out : List Byte} {tail : Bits} (h : Greedy s bits out tail) :
    out.length + tail.length ≤ bits.length := by
  induction h with
  | rest tail _ => simp
  | emit bits m c out tail hfirst _ ih =>
    obtain ⟨hpos, hle, -⟩ := hfirst
    rw [List.length_drop] at ih
    rw [List.length_cons]
    omega

/-- The decomposition reads the table through Match alone. -/
theorem Greedy.congr {s t : State} (hmatch : matchCode s = matchCode t) {bits : Bits} {out : List Byte} {tail : Bits}
    (h : Greedy s bits out tail) : Greedy t bits out tail := by
  induction h with
  | rest tail hno => exact .rest tail (by simpa only [NoMatch, hmatch] using hno)
  | emit bits m c out tail hfirst _ ih =>
    exact .emit bits m c out tail (by simpa only [FirstMatch, hmatch] using hfirst) ih

/-! ### Tables that are PrefixFree (R150, R151) -/

/-- A code is matched by its own symbol: no other has an equal code. -/
theorem PrefixFree.matchCode_codeBits {s : State} (hp : PrefixFree s) {c : Byte} (hc : ctValid s c = true) :
    matchCode s (codeBits s c) = some c := by
  refine matchCode_eq_some_iff.mpr ⟨hasCode_iff.mpr ⟨hc, rfl⟩, fun d hlt hd => ?_⟩
  obtain ⟨hv, hcode⟩ := hasCode_iff.mp hd
  have hne : d ≠ c := ne_of_apply_ne BitVec.toNat hlt.ne
  exact hp d c hne hv hc (hcode ▸ List.prefix_rfl)

/-- A proper beginning of a code matches nothing. -/
theorem PrefixFree.matchCode_of_prefix {s : State} (hp : PrefixFree s) {c : Byte} (hc : ctValid s c = true)
    {bits : Bits} (hpre : bits <+: codeBits s c) (hlt : bits.length < (codeBits s c).length) :
    matchCode s bits = none := by
  refine matchCode_eq_none_iff.mpr fun d hd => ?_
  obtain ⟨hv, rfl⟩ := hasCode_iff.mp hd
  have hne : d ≠ c := ne_of_apply_ne (fun e => (codeBits s e).length) hlt.ne
  exact hp d c hne hv hc hpre

/-- The scan of a proper beginning of a code emits nothing: each shorter beginning is one too. -/
theorem PrefixFree.noMatch_of_prefix {s : State} (hp : PrefixFree s) {c : Byte} (hc : ctValid s c = true)
    {tail : Bits} (hpre : tail <+: codeBits s c) (hne : tail ≠ codeBits s c) : NoMatch s tail := by
  have hlt : tail.length < (codeBits s c).length :=
    Nat.lt_of_le_of_ne hpre.length_le fun heq => hne (hpre.eq_of_length heq)
  exact fun j _ _ =>
    hp.matchCode_of_prefix hc ((List.take_prefix j tail).trans hpre) ((List.take_prefix j tail).length_le.trans_lt hlt)

/-- What starts with a code matches that code first. -/
theorem PrefixFree.firstMatch_codeBits {s : State} (hp : PrefixFree s) (hinv : HbpInv s) {c : Byte}
    (hc : ctValid s c = true) (rest : Bits) :
    FirstMatch s (codeBits s c ++ rest) (codeBits s c).length c := by
  have hpos : 1 ≤ (codeBits s c).length := by
    obtain ⟨l, hl, hle, -⟩ := hinv.valid_has_length c hc
    rw [codeBits_length, ctLen, hl]
    exact hle
  refine ⟨hpos, by simp, by rw [List.take_left, hp.matchCode_codeBits hc], fun j _ hj => ?_⟩
  rw [List.take_append_of_le_length hj.le]
  exact hp.matchCode_of_prefix hc (List.take_prefix j _) (by rw [List.length_take]; omega)

/-- Codes of valid symbols decompose into those symbols, with what matches nothing behind them as the tail. -/
theorem PrefixFree.greedy_codes {s : State} (hp : PrefixFree s) (hinv : HbpInv s) {syms : List Byte}
    (hsyms : ∀ c ∈ syms, ctValid s c = true) {tail : Bits} (htail : NoMatch s tail) :
    Greedy s (syms.flatMap (codeBits s) ++ tail) syms tail := by
  induction syms with
  | nil => exact .rest tail htail
  | cons c syms ih =>
    obtain ⟨hc, hsyms⟩ := List.forall_mem_cons.mp hsyms
    rw [List.flatMap_cons, List.append_assoc]
    refine .emit _ _ c syms tail (hp.firstMatch_codeBits hinv hc _) ?_
    rw [List.drop_left]
    exact ih hsyms

/-! ### How UNPACK ends (R140, R141, R145 to R147, R185) -/

/-- R141: the count is checked against the depth before anything else. -/
theorem unpackRun_of_badCount {s : State} (h : s.params.byteDepth < s.byteCount.toNat) :
    unpackRun s = .error (.badCount s.byteCount) := if_pos h

/-- R141: a stream has its header byte. -/
theorem unpackRun_of_empty {s : State} (h : s.byteCount.toNat = 0) : unpackRun s = .error .truncatedStream := by
  simp [unpackRun, h]

/-- With the count in range the run is told from the residual's decomposition: a tail is reported before the number of
symbols is looked at (R184). -/
theorem unpackRun_of_greedy {s : State} {out : List Byte} {tail : Bits} (hn : 1 ≤ s.byteCount.toNat)
    (hd : s.byteCount.toNat ≤ s.params.byteDepth) (hg : Greedy s (residualOf s) out tail) :
    unpackRun s =
      if tail ≠ [] then .error (.invalidCode (residualLength s - tail.length))
      else if s.params.symDepth < out.length then .error (.outputOverflow out.length)
      else .ok { symbols := out, pad := byteRead s 0, nbits := residualLength s } := by
  have hscan := hg.scan_eq
  rw [residualOf_length, ← residualBits_eq_residualOf] at hscan
  rw [unpackRun, if_neg (Nat.not_lt.mpr hd), if_neg (Nat.not_lt.mpr hn)]
  dsimp only
  rw [hscan]
  by_cases htail : tail = []
  · rw [if_pos htail, if_neg (not_not.mpr htail)]
    rfl
  · rw [if_neg htail, if_pos htail]

theorem exec_unpack_of_error {s : State} {e : CmdError} (h : unpackRun s = .error e) :
    exec .unpack s = .next (errorReport (some .unpack) e s) := by
  show execUnpack s = _
  rw [execUnpack, h]

theorem exec_unpack_of_ok {s : State} {r : UnpackOut} (h : unpackRun s = .ok r) :
    exec .unpack s = .next (complete 0#4 0#32 (unpackStore r s)) := by
  show execUnpack s = _
  rw [execUnpack, h]

/-- After a successful UNPACK, SYM_BUF holds the result's symbols from index 0. -/
theorem read?_unpackStore {r : UnpackOut} (s : State) {i : Nat} (hi : i < r.symbols.length) :
    (complete 0#4 0#32 (unpackStore r s)).symBuf.read? i = r.symbols[i]? := by
  rw [complete_symBuf, unpackStore_symBuf, Memory.read?_writeBytes, if_pos (by omega), Nat.sub_zero]

/-- Settles O33: the two checks, whose error reports are the whole effect. -/
theorem unpackChecksTheCount : Obligations.UnpackChecksTheCount := fun _ =>
  ⟨fun hd => ⟨_, exec_unpack_of_error (unpackRun_of_badCount hd), rfl⟩,
    fun h0 => ⟨_, exec_unpack_of_error (unpackRun_of_empty (congrArg BitVec.toNat h0)), rfl⟩⟩

/-- Settles O35: the run's three outcomes, whose numbers fit their registers. -/
theorem unpackFollowsTheGreedyScan : Obligations.UnpackFollowsTheGreedyScan := by
  intro s out tail hlegal hn hd hg
  obtain ⟨-, -, hsym, -, -, hbyte, -⟩ := hlegal
  have hrun := unpackRun_of_greedy hn hd hg
  have hlen := hg.length_le
  have hbits : residualLength s < 2 ^ 32 := by
    rw [residualLength]
    omega
  rw [residualOf_length] at hlen
  by_cases htail : tail ≠ []
  · rw [if_pos htail] at hrun
    have hinfo : (BitVec.ofNat 32 (residualLength s - tail.length)).toNat = residualLength s - tail.length :=
      Nat.mod_eq_of_lt (by omega)
    refine ⟨_, exec_unpack_of_error hrun, ?_⟩
    rw [if_pos htail]
    exact ⟨rfl, hinfo.symm ▸ Nat.sub_add_cancel (by omega)⟩
  by_cases hover : s.params.symDepth < out.length
  · rw [if_neg htail, if_pos hover] at hrun
    refine ⟨_, exec_unpack_of_error hrun, ?_⟩
    rw [if_neg htail, if_pos hover]
    exact ⟨rfl, Nat.mod_eq_of_lt (by omega)⟩
  · rw [if_neg htail, if_neg hover] at hrun
    refine ⟨_, exec_unpack_of_ok hrun, ?_⟩
    rw [if_neg htail, if_neg hover]
    exact ⟨rfl, rfl, toNat_count (Nat.not_lt.mp hover) hsym, rfl, Nat.mod_eq_of_lt hbits,
      fun i hi => read?_unpackStore s hi, fun i hi => read?_writeBytes_from_length s.symBuf hi⟩

/-- Settles O36: the residual has no bits, so the run gives no symbols and stores none. -/
theorem unpackOfHeaderDroppingEveryBit : Obligations.UnpackOfHeaderDroppingEveryBit := by
  intro s hn hd hheader
  have hlen : residualLength s = 0 := Nat.sub_eq_zero_of_le hheader
  have hnil : residualOf s = [] := List.eq_nil_of_length_eq_zero ((residualOf_length s).trans hlen)
  have hg : Greedy s (residualOf s) [] [] := hnil ▸ Greedy.rest [] (noMatch_nil s)
  have hrun := unpackRun_of_greedy hn hd hg
  have hfits : ¬ s.params.symDepth < ([] : List Byte).length := Nat.not_lt_zero _
  rw [if_neg (not_not.mpr rfl), if_neg hfits, hlen] at hrun
  exact exec_unpack_of_ok hrun

/-! ### What UNPACK reads (R149) -/

/-- R149, for the run: it is a function of the depths, BYTE_COUNT, the stream bytes and the entries. -/
theorem unpackRun_congr {s t : State} (hsym : s.params.symDepth = t.params.symDepth)
    (hbyte : s.params.byteDepth = t.params.byteDepth) (hcount : s.byteCount = t.byteCount)
    (hbytes : ∀ j < s.byteCount.toNat, byteRead s j = byteRead t j) (hentry : ∀ c, SameEntry s t c) :
    unpackRun s = unpackRun t := by
  rcases Nat.lt_or_ge s.params.byteDepth s.byteCount.toNat with hd | hd
  · rw [unpackRun_of_badCount hd, unpackRun_of_badCount (hbyte ▸ hcount ▸ hd), hcount]
  rcases Nat.eq_zero_or_pos s.byteCount.toNat with h0 | hn
  · rw [unpackRun_of_empty h0, unpackRun_of_empty (hcount ▸ h0)]
  · have hres := residualOf_congr hn hcount hbytes
    have hlen : residualLength s = residualLength t := by rw [← residualOf_length, hres, residualOf_length]
    obtain ⟨out, tail, hg, -⟩ := exists_greedy_scan s (residualOf s)
    have hg' : Greedy t (residualOf t) out tail := hres ▸ hg.congr (matchCode_congr hentry)
    rw [unpackRun_of_greedy hn hd hg, unpackRun_of_greedy (hcount ▸ hn) (hbyte ▸ hcount ▸ hd) hg', hlen, hsym,
      hbytes 0 hn]

/-- Settles O39: the run is the same, and the outcome is made of the run. -/
theorem unpackReadsOnlyItsOperands : Obligations.UnpackReadsOnlyItsOperands := by
  intro s₁ s₂ t₁ t₂ hsym hbyte hcount hbytes hentry hx₁ hx₂
  have hrun := unpackRun_congr hsym hbyte hcount hbytes hentry
  cases hr : unpackRun s₁ with
  | error e =>
    cases (exec_unpack_of_error hr).symm.trans hx₁
    cases (exec_unpack_of_error (hrun ▸ hr)).symm.trans hx₂
    exact ⟨rfl, rfl, rfl, rfl, rfl, fun herr => absurd herr (errCode_ne_zero e)⟩
  | ok r =>
    cases (exec_unpack_of_ok hr).symm.trans hx₁
    cases (exec_unpack_of_ok (hrun ▸ hr)).symm.trans hx₂
    refine ⟨rfl, rfl, rfl, rfl, rfl, fun _ i hi => ?_⟩
    have hlen : i < r.symbols.length := hi.trans_le (BitVec.toNat_ofNat .. ▸ Nat.mod_le _ _)
    have hread := List.getElem?_eq_getElem hlen
    rw [symRead_of_read? ((read?_unpackStore s₁ hlen).trans hread),
      symRead_of_read? ((read?_unpackStore s₂ hlen).trans hread)]

/-! ### The round trip and truncation (R150, R151) -/

/-- Settles O40: the residual of what PACK left is the code bits of its input, and over a PrefixFree table these
decompose into the input. -/
theorem unpackInvertsPack : Obligations.UnpackInvertsPack := by
  intro s t u hinv hp hx herr hparams hct hera hcount hbuf
  obtain ⟨r, hr, rfl⟩ := exec_pack_success hx herr
  obtain ⟨hsym, hvalid, hbytes, -, -, hfits⟩ := packRun_ok_inv s r hr
  have hpacked := holdsPacked_of_packRun hinv.params_legal hr
  have hlen := hpacked.byteCount
  rw [← packStream_length, ← hbytes, ← hcount] at hlen
  have hn : 1 ≤ u.byteCount.toNat := by
    rw [hlen, hbytes, packStream_length]
    omega
  have hd : u.byteCount.toNat ≤ u.params.byteDepth := by
    rw [hlen, hparams]
    exact hfits
  have hread : ∀ j < u.byteCount.toNat, byteRead u j = byteRead (complete 0#4 0#32 (packStore r s)) j :=
    fun j hj => byteRead_congr hera (hbuf j (hcount ▸ hj))
  have hres : residualOf u = packCodeBits s := (residualOf_congr hn hcount hread).trans hpacked.residualOf_eq
  have hentry : ∀ c, SameEntry s u c := sameEntry_of_ct_eq hct.symm hera.symm
  have hg : Greedy u (residualOf u) (packInput s) [] := by
    rw [hres, ← List.append_nil (packCodeBits s)]
    exact (hp.greedy_codes hinv hvalid (noMatch_nil s)).congr (matchCode_congr hentry)
  obtain ⟨v, hv, hend⟩ := unpackFollowsTheGreedyScan u _ [] (hparams ▸ hinv.params_legal) hn hd hg
  rw [if_neg (not_not.mpr rfl), packInput_length, if_neg (Nat.not_lt.mpr (hparams ▸ hsym))] at hend
  obtain ⟨hstatus, -, hcountv, hpad, hnbits, hsymbols, -⟩ := hend
  refine ⟨v, hv, congrArg Status.err hstatus, congrArg Status.done hstatus, BitVec.eq_of_toNat_eq hcountv,
    fun i hi => symRead_of_read? ?_, ?_, BitVec.eq_of_toNat_eq ?_⟩
  · rw [hsymbols i hi, packInput, List.getElem?_map, List.getElem?_range hi]
    rfl
  · rw [hpad, hread 0 hn, hpacked.header]
  · rw [hnbits, ← residualOf_length, hres, hpacked.resNbits]

/-- Settles O41: the tail of R151 matches nothing, so the codes before it are the residual's decomposition. -/
theorem truncatedCodeIsDetected : Obligations.TruncatedCodeIsDetected := by
  intro s syms tail hinv hp hn hd hsyms hres
  refine ⟨fun htail ⟨c, hc, hpre, hne⟩ => ?_, fun htail hfits => ?_⟩
  · have hg := hp.greedy_codes hinv hsyms (hp.noMatch_of_prefix hc hpre hne)
    rw [← hres] at hg
    obtain ⟨t, hx, hend⟩ := unpackFollowsTheGreedyScan s syms tail hinv.params_legal hn hd hg
    rw [if_pos htail] at hend
    obtain ⟨hfailed, hinfo⟩ := hend
    rw [← residualOf_length, hres, List.length_append] at hinfo
    exact ⟨t, hx, hfailed, Nat.add_right_cancel hinfo⟩
  · subst htail
    have hg := hp.greedy_codes hinv hsyms (noMatch_nil s)
    rw [← hres] at hg
    obtain ⟨t, hx, hend⟩ := unpackFollowsTheGreedyScan s syms [] hinv.params_legal hn hd hg
    rw [if_neg (not_not.mpr rfl), if_neg (Nat.not_lt.mpr hfits)] at hend
    obtain ⟨hstatus, -, hsymCount, -, -, hread, -⟩ := hend
    exact ⟨t, hx, congrArg Status.err hstatus, hsymCount, hread⟩

end Sys2Proof.Machine

namespace Sys2Proof.Machine

/-! ## The command lifecycle and the control commands (42_control.md) -/

/-! ### The meanings of NOP, CT_CLEAR and SRESET (R164 to R167) -/

theorem exec_nop (s : State) : exec .nop s = .next (complete 0#4 0#32 s) := rfl

theorem exec_ctClear (s : State) :
    exec .ctClear s = .next (complete 0#4 0#32 { s with ct := ctMap (fun _ => entryCleared) s.ct }) := rfl

theorem exec_sreset (s : State) : exec .sreset s = .next (softReset s) := rfl

/-- Settles O23: NOP is the completion of R162 alone. -/
theorem nopOnlyCompletes : Obligations.NopOnlyCompletes := exec_nop

/-- The two words of a cleared entry read 0 (R41, R42, R166). -/
theorem readTarget_of_entryCleared {s : State} {c : Byte} (h : ctGet s.ct c = entryCleared) :
    readTarget (.ctCode c) s = 0#32 ∧ readTarget (.ctMeta c) s = 0#32 := by
  simp [readTarget, ctCode, ctValid, ctLen, h, entryCleared, metaWord]

/-- Settles O24: every entry is the cleared one, and the rest is the completion of R162. -/
theorem ctClearZeroesTheTable : Obligations.CtClearZeroesTheTable := fun s =>
  have hclear (c : Byte) : ctGet (ctMap (fun _ => entryCleared) s.ct) c = entryCleared := ctGet_ctMap _ s.ct c
  ⟨_, exec_ctClear s, fun c => ⟨hclear c, readTarget_of_entryCleared (hclear c)⟩, rfl⟩

/-- Settles O25: `SoftReset` is the whole effect, and it invalidates entry by entry. -/
theorem sresetResets : Obligations.SresetResets := fun s =>
  ⟨_, exec_sreset s, rfl, ctGet_ctMap entryInvalidate s.ct, rfl⟩

/-! ### Acceptance (R160, R161) -/

/-- Settles O16: an idle CMD write is the acceptance of R161, a busy one is lost (R68). -/
theorem cmdWriteIsAcceptedWhenIdle : Obligations.CmdWriteIsAcceptedWhenIdle := by
  intro s w
  refine ⟨busWrite_cmd w, fun hbusy => ?_⟩
  have hlost : busWrite .w32 0x004 w s = (overrun s, .okay) := busyWindowWrites s 0x004 w hbusy rfl (by decide)
  rw [hlost, overrun_pending]

/-- CMD stands at offset 0x004 and nowhere else. -/
theorem offset_of_targetOf_cmd {a : Nat} (h4 : a % 4 = 0) (h : targetOf a = .cmd) : a = 0x004 := by
  have hdefined : definedWhileBusy (targetOf a) = true := by
    rw [h]
    rfl
  rcases (definedWhileBusy_iff h4).mp hdefined with hmem | hres
  · exact (by decide : ∀ a ∈ [0x000, 0x004, 0x008, 0x00C, 0x024, 0x028, 0x02C], targetOf a = .cmd → a = 0x004) a hmem h
  · cases h.symm.trans hres

/-- Of the writes that take effect only that to CMD sets BUSY. -/
theorem writeTarget_busy {t : Target} {v : Word} {s : State} (hidle : s.status.busy = false)
    (h : (writeTarget t v s).status.busy = true) : t = .cmd := by
  rw [writeTarget_status] at h
  cases t with
  | cmd => rfl
  | _ => cases hidle.symm.trans h

/-- Settles O21: of the events of an idle block only a host write that takes effect on CMD sets BUSY. -/
theorem onlyACmdWriteStartsACommand : Obligations.OnlyACmdWriteStartsACommand := by
  intro s t hstep hidle hbusy
  rcases step_cases s with ⟨hturn, hx⟩ | ⟨-, hx⟩ | ⟨-, -, hx⟩ | ⟨-, hrunning, -⟩
  · cases hx.symm.trans hstep
    rcases hostTurn_effect (passTurn s) with
      ⟨p, r, d, ht⟩ | ⟨a, v, more, hprog, -, hal, -, ⟨hrunning, -⟩ | ⟨-, ht⟩⟩
    · rw [ht] at hbusy
      cases hidle.symm.trans hbusy
    · cases hidle.symm.trans hrunning
    · rw [ht] at hbusy ⊢
      have hcmd : targetOf a = .cmd := writeTarget_busy (s := { passTurn s with prog := more }) hidle hbusy
      obtain rfl := offset_of_targetOf_cmd hal hcmd
      exact ⟨hturn, v, more, hprog, rfl⟩
  · cases hx.symm.trans hstep
    cases hbusy
  · cases hx.symm.trans hstep
    cases hidle.symm.trans hbusy
  · cases hidle.symm.trans hrunning

/-! ### The engine step (R162, R164) -/

theorem engineStep_of_decode {s : State} {w : Word} {i : Instr} (hp : s.pending = some w) (hd : decode w = .ok i) :
    engineStep s = exec i s := by
  rcases engineStep_pending s w hp with ⟨j, hj, hx⟩ | ⟨r, hr, -⟩
  · cases hj.symm.trans hd
    exact hx
  · cases hr.symm.trans hd

theorem engineStep_of_reject {s : State} {w : Word} {r : DecodeReject} (hp : s.pending = some w)
    (hd : decode w = .error r) : engineStep s = .next (errorReport none (.illegalCmd w) s) := by
  rcases engineStep_pending s w hp with ⟨i, hi, -⟩ | ⟨-, -, hx⟩
  · cases hi.symm.trans hd
  · exact hx

/-- Settles O11: the engine's turn is the engine step of the pending word, which is the command's meaning. -/
theorem stepRunsTheDecodedCommand : Obligations.StepRunsTheDecodedCommand := by
  intro s w i hnext hbusy hp hd
  rw [step_of_engineNext hnext hbusy, engineStep_of_decode (s := passTurn s) hp hd]

/-- Every command answers a next state. -/
theorem exec_answers (i : Instr) (s : State) : ∃ t, exec i s = .next t := by
  cases i with
  | nop => exact ⟨_, exec_nop s⟩
  | ctClear => exact ⟨_, exec_ctClear s⟩
  | sreset => exact ⟨_, exec_sreset s⟩
  | pack => rcases execPack_cases s with ⟨_, -, hx⟩ | ⟨_, -, hx⟩ <;> exact ⟨_, hx⟩
  | unpack => rcases execUnpack_cases s with ⟨_, -, hx⟩ | ⟨_, -, hx⟩ <;> exact ⟨_, hx⟩

/-- Every pending word, legal or not, runs to a next state (R162, R164). -/
theorem engineStep_answers {s : State} {w : Word} (hp : s.pending = some w) : ∃ t, engineStep s = .next t := by
  rcases engineStep_pending s w hp with ⟨i, -, hx⟩ | ⟨-, -, hx⟩ <;> rw [hx]
  · exact exec_answers i s
  · exact ⟨_, rfl⟩

/-- The engine step ends the command: nothing is pending and BUSY is 0 (R162). -/
theorem engineStep_ends {s t : State} (h : engineStep s = .next t) : t.pending = none ∧ t.status.busy = false := by
  constructor
  · obtain ⟨w, -, ⟨i, -, hx⟩ | ⟨r, -, rfl⟩⟩ := engineStep_cases h
    · rcases exec_cases hx with
        ⟨-, rfl⟩ | ⟨-, rfl⟩ | ⟨-, rfl⟩ | ⟨e, -, rfl⟩ | ⟨r, -, -, rfl⟩ | ⟨r, -, -, rfl⟩ <;> rfl
    · rfl
  · rcases engineStep_status h with ht | ⟨-, code, ht⟩ <;> simp [ht]

/-! ### The host beside a running command (R68, R162, U6) -/

/-- `t` is `s` but for STATUS, the host's two lists and the counter of free words: nothing a command reads differs
(R93), and no result of one. -/
def SameForEngine (s t : State) : Prop :=
  ∃ st p r d, t = { s with status := st, prog := p, received := r, draws := d }

theorem SameForEngine.refl (s : State) : SameForEngine s s := ⟨s.status, s.prog, s.received, s.draws, rfl⟩

theorem SameForEngine.trans {s t u : State} (hst : SameForEngine s t) (htu : SameForEngine t u) : SameForEngine s u := by
  obtain ⟨_, _, _, _, rfl⟩ := hst
  obtain ⟨st, p, r, d, rfl⟩ := htu
  exact ⟨st, p, r, d, rfl⟩

/-- The fields two such states share. -/
theorem SameForEngine.fields {s t : State} (h : SameForEngine s t) :
    t.pending = s.pending ∧ SameInputs s t ∧ t.resPad = s.resPad ∧ t.resNbits = s.resNbits ∧ t.errInfo = s.errInfo ∧
      t.sched = s.sched := by
  obtain ⟨st, p, r, d, rfl⟩ := h
  exact ⟨rfl, ⟨rfl, rfl, rfl, rfl, rfl, rfl, rfl, rfl⟩, rfl, rfl, rfl, rfl⟩

/-- While BUSY = 1 a host turn is a read, a lost write or a write to STATUS: BUSY stays, and so does all that the engine
sees (R64, R68). -/
theorem hostTurn_of_busy {s : State} (hbusy : s.status.busy = true) :
    (hostTurn s).status.busy = true ∧ SameForEngine s (hostTurn s) := by
  rcases hostTurn_effect s with ⟨p, r, d, ht⟩ | ⟨a, v, more, -, -, -, -, ⟨-, -, ht⟩ | ⟨hserved, ht⟩⟩
  · rw [ht]
    exact ⟨hbusy, s.status, p, r, d, rfl⟩
  · rw [ht]
    exact ⟨hbusy, statusOverrun s.status, more, .okay :: s.received, s.draws, rfl⟩
  · have hstatus : targetOf a = .status := hserved.resolve_left (by simp [hbusy])
    rw [ht, hstatus]
    exact ⟨hbusy, statusW1c v s.status, more, .okay :: s.received, s.draws, rfl⟩

theorem iterate_hostTurn_of_busy {s : State} (hbusy : s.status.busy = true) (n : Nat) :
    (hostTurn^[n] s).status.busy = true ∧ SameForEngine s (hostTurn^[n] s) := by
  induction n with
  | zero => exact ⟨hbusy, .refl s⟩
  | succ n ih =>
    obtain ⟨hn, hsame⟩ := ih
    obtain ⟨hn', hsame'⟩ := hostTurn_of_busy hn
    rw [Function.iterate_succ_apply']
    exact ⟨hn', hsame.trans hsame'⟩

/-- Settles O54: the fields that a host turn of the busy window keeps. -/
theorem hostCannotChangeARunningCommand : Obligations.HostCannotChangeARunningCommand := by
  intro s hbusy
  obtain ⟨hbusy', hsame⟩ := hostTurn_of_busy hbusy
  exact ⟨hbusy', hsame.fields⟩

theorem SameForEngine.packRun_eq {s t : State} (h : SameForEngine s t) : packRun s = packRun t := by
  obtain ⟨st, p, r, d, rfl⟩ := h
  exact packRun_congr rfl rfl rfl rfl fun _ _ => ⟨rfl, sameEntry_of_ct_eq rfl rfl _⟩

theorem SameForEngine.unpackRun_eq {s t : State} (h : SameForEngine s t) : unpackRun s = unpackRun t := by
  obtain ⟨st, p, r, d, rfl⟩ := h
  exact unpackRun_congr rfl rfl rfl (fun _ _ => rfl) (sameEntry_of_ct_eq rfl rfl)

/-- Two ends of a command with the same result code, which only OVR, the host's lists and the counter of free words tell
apart. -/
def SameEnd (a b : State) : Prop :=
  SameForEngine a b ∧ b.status.done = a.status.done ∧ b.status.err = a.status.err

/-- A command reads nothing that tells the two states apart, so it ends alike from both. -/
theorem SameForEngine.exec_end {i : Instr} {s t a : State} (h : SameForEngine s t) (ha : exec i s = .next a) :
    ∃ b, exec i t = .next b ∧ SameEnd a b := by
  have hpack := h.packRun_eq
  have hunpack := h.unpackRun_eq
  obtain ⟨st, p, r, d, rfl⟩ := h
  cases i with
  | nop =>
    cases ha
    exact ⟨_, exec_nop _, ⟨_, p, r, d, rfl⟩, rfl, rfl⟩
  | ctClear =>
    cases ha
    exact ⟨_, exec_ctClear _, ⟨_, p, r, d, rfl⟩, rfl, rfl⟩
  | sreset =>
    cases ha
    exact ⟨_, exec_sreset _, ⟨_, p, r, d, rfl⟩, rfl, rfl⟩
  | pack =>
    rcases execPack_cases s with ⟨e, hr, hx⟩ | ⟨out, hr, hx⟩ <;> cases hx.symm.trans ha
    · exact ⟨_, exec_pack_of_error (hpack ▸ hr), ⟨_, p, r, d, rfl⟩, rfl, rfl⟩
    · exact ⟨_, exec_pack_of_ok (hpack ▸ hr), ⟨_, p, r, d, rfl⟩, rfl, rfl⟩
  | unpack =>
    rcases execUnpack_cases s with ⟨e, hr, hx⟩ | ⟨out, hr, hx⟩ <;> cases hx.symm.trans ha
    · exact ⟨_, exec_unpack_of_error (hunpack ▸ hr), ⟨_, p, r, d, rfl⟩, rfl, rfl⟩
    · exact ⟨_, exec_unpack_of_ok (hunpack ▸ hr), ⟨_, p, r, d, rfl⟩, rfl, rfl⟩

/-- The engine step of the same pending word ends alike from both states. -/
theorem SameForEngine.engineStep_end {s t a : State} (h : SameForEngine s t) (ha : engineStep s = .next a) :
    ∃ b, engineStep t = .next b ∧ SameEnd a b := by
  obtain ⟨hpending, -⟩ := h.fields
  obtain ⟨w, hp, ⟨i, hd, hx⟩ | ⟨reason, hd, rfl⟩⟩ := engineStep_cases ha
  · rw [engineStep_of_decode (hpending.trans hp) hd]
    exact h.exec_end hx
  · obtain ⟨st, p, r, d, rfl⟩ := h
    exact ⟨_, engineStep_of_reject hp hd, ⟨_, p, r, d, rfl⟩, rfl, rfl⟩

/-- Settles O55: host turns of the busy window change nothing the engine step reads, so it ends alike after them. -/
theorem engineStepIsOrderIndependent : Obligations.EngineStepIsOrderIndependent := by
  intro s w n hbusy hp
  obtain ⟨-, hsame⟩ := iterate_hostTurn_of_busy hbusy n
  obtain ⟨a, ha⟩ := engineStep_answers hp
  obtain ⟨b, hb, hend, hdone, herr⟩ := hsame.engineStep_end ha
  obtain ⟨-, hinputs, hpad, hbits, hinfo, -⟩ := hend.fields
  obtain ⟨hpa, hba⟩ := engineStep_ends ha
  obtain ⟨hpb, hbb⟩ := engineStep_ends hb
  exact ⟨a, b, ha, hb, hinputs, hpad, hbits, hinfo, hpb, hpa, hbb, hba, hdone, herr⟩

end Sys2Proof.Machine

namespace Sys2Proof.Machine

/-! ## Errors and the interrupt line (60_exceptions.md) -/

/-! ### Bad accesses (R189) -/

/-- Another width than 32 bits, or an offset that is no multiple of 4, is a bad access (R61, R62). -/
theorem isBadAccess_of_shape {width : Width} {a : Nat} (h : width ≠ .w32 ∨ a % 4 ≠ 0) : isBadAccess width a = true := by
  by_contra hgood
  obtain ⟨hwidth, hal, -⟩ := (isBadAccess_eq_false_iff width a).mp (Bool.eq_false_of_not_eq_true hgood)
  exact h.elim (· hwidth) (· hal)

/-- Settles O47: the block looks at the shape of an access before anything else. -/
theorem badAccessGetsError : Obligations.BadAccessGetsError := fun _ _ _ _ h =>
  ⟨if_pos (isBadAccess_of_shape h), if_pos (isBadAccess_of_shape h)⟩

/-! ### The interrupt line (R192) -/

/-- Only SRESET among the commands writes CONFIG (R211). -/
theorem exec_keeps_config {i : Instr} {s t : State} (h : exec i s = .next t) (hi : i ≠ .sreset) :
    t.config = s.config := by
  rcases exec_cases h with
    ⟨-, rfl⟩ | ⟨-, rfl⟩ | ⟨rfl, -⟩ | ⟨e, -, rfl⟩ | ⟨r, -, -, rfl⟩ | ⟨r, -, -, rfl⟩
  · rfl
  · rfl
  · exact absurd rfl hi
  · exact errorReport_config _ e s
  · rfl
  · rfl

/-- Settles O22: the two bits of the register words; a completion sets DONE and keeps IE, SRESET clears DONE. -/
theorem irqIsDoneAndEnabled : Obligations.IrqIsDoneAndEnabled := by
  refine fun s => ⟨?_, fun i t h => ?_⟩
  · rw [statusWord_getLsbD, configWord_getLsbD]
    rfl
  · rcases exec_status h with ⟨rfl, ht⟩ | ⟨hi, code, ht⟩
    · exact ⟨fun hne => absurd rfl hne, fun _ => by simp [irqOut, ht]⟩
    · exact ⟨fun _ => by simp [irqOut, ht, exec_keeps_config h hi], fun heq => absurd heq hi⟩

/-! ### The error report (R185) -/

/-- Settles O43: a success ends with code 0, and every other end is the error report. -/
theorem errorReportsAreAllOrNothing : Obligations.ErrorReportsAreAllOrNothing := by
  refine fun s t => ⟨fun hx herr => ?_, fun hx herr => ?_, fun w hx => ?_⟩
  · rcases execPack_cases s with ⟨e, -, hend⟩ | ⟨r, -, hend⟩ <;> cases hend.symm.trans hx
    · rfl
    · exact absurd rfl herr
  · rcases execUnpack_cases s with ⟨e, -, hend⟩ | ⟨r, -, hend⟩ <;> cases hend.symm.trans hx
    · rfl
    · exact absurd rfl herr
  · cases hx
    rfl

/-! ### Which errors a command can end with (R183) -/

/-- The errors of PACK, in the order of its checks (R184). -/
theorem packRun_error {s : State} {e : CmdError} (h : packRun s = .error e) :
    e = .badCount s.symCount ∨ (∃ c i, e = .missingCode c i) ∨ ∃ n, e = .outputOverflow n := by
  rcases Nat.lt_or_ge s.params.symDepth s.symCount.toNat with hn | hn
  · cases (packRun_of_badCount hn).symm.trans h
    exact .inl rfl
  cases hm : firstMissing s 0 (packInput s) with
  | some x =>
    cases (packRun_of_missing hn hm).symm.trans h
    exact .inr (.inl ⟨_, _, rfl⟩)
  | none =>
    rw [packRun_of_valid s hn ((firstMissing_none s 0 _).mp hm)] at h
    split at h <;> cases h
    exact .inr (.inr ⟨_, rfl⟩)

/-- The errors of UNPACK, in the order of its checks (R184). -/
theorem unpackRun_error {s : State} {e : CmdError} (h : unpackRun s = .error e) :
    e = .badCount s.byteCount ∨ e = .truncatedStream ∨ (∃ k, e = .invalidCode k) ∨ ∃ n, e = .outputOverflow n := by
  rcases Nat.lt_or_ge s.params.byteDepth s.byteCount.toNat with hd | hd
  · cases (unpackRun_of_badCount hd).symm.trans h
    exact .inl rfl
  rcases Nat.eq_zero_or_pos s.byteCount.toNat with h0 | hn
  · cases (unpackRun_of_empty h0).symm.trans h
    exact .inr (.inl rfl)
  obtain ⟨out, tail, hg, -⟩ := exists_greedy_scan s (residualOf s)
  rw [unpackRun_of_greedy hn hd hg] at h
  split at h
  · cases h
    exact .inr (.inr (.inl ⟨_, rfl⟩))
  split at h <;> cases h
  exact .inr (.inr (.inr ⟨_, rfl⟩))

/-- Settles O44: PACK and UNPACK end with code 0 or with that of an error of their run, the others complete or reset. -/
theorem errorsOfEachCommand : Obligations.ErrorsOfEachCommand := by
  intro i s
  cases i with
  | nop => exact ⟨_, exec_nop s, rfl⟩
  | ctClear => exact ⟨_, exec_ctClear s, rfl⟩
  | sreset => exact ⟨_, exec_sreset s, rfl⟩
  | pack =>
    rcases execPack_cases s with ⟨e, he, hx⟩ | ⟨r, -, hx⟩
    · rcases packRun_error he with rfl | ⟨c, k, rfl⟩ | ⟨n, rfl⟩
      · exact ⟨_, hx, .inr (.inl rfl)⟩
      · exact ⟨_, hx, .inr (.inr (.inl rfl))⟩
      · exact ⟨_, hx, .inr (.inr (.inr rfl))⟩
    · exact ⟨_, hx, .inl rfl⟩
  | unpack =>
    rcases execUnpack_cases s with ⟨e, he, hx⟩ | ⟨r, -, hx⟩
    · rcases unpackRun_error he with rfl | rfl | ⟨k, rfl⟩ | ⟨n, rfl⟩
      · exact ⟨_, hx, .inr (.inl rfl)⟩
      · exact ⟨_, hx, .inr (.inr (.inl rfl))⟩
      · exact ⟨_, hx, .inr (.inr (.inr (.inl rfl)))⟩
      · exact ⟨_, hx, .inr (.inr (.inr (.inr rfl)))⟩
    · exact ⟨_, hx, .inl rfl⟩

/-! ### The reports of PACK (R181, R184) -/

/-- The information word of MISSING_CODE as a number: the symbol above the index (R181). -/
theorem errInfoOf_missingCode_toNat (c : Byte) {i : Nat} (hi : i < 65536) :
    (errInfoOf (.missingCode c i)).toNat = 65536 * c.toNat + i := by
  have hc := c.isLt
  have hhigh : (c.setWidth 32 <<< 16).toNat = 2 ^ 16 * c.toNat := by
    rw [BitVec.toNat_shiftLeft, BitVec.toNat_setWidth, Nat.shiftLeft_eq]
    omega
  rw [errInfoOf, BitVec.toNat_or, hhigh, BitVec.toNat_ofNat, Nat.mod_eq_of_lt (by omega),
    ← Nat.two_pow_add_eq_or_of_lt hi]

/-- The fields of that word: the index in bits 15:0, the symbol in bits 23:16, 0 above (R181). -/
theorem errInfoOf_missingCode_fields (c : Byte) {i : Nat} (hi : i < 65536) :
    (errInfoOf (.missingCode c i)).extractLsb' 0 16 = BitVec.ofNat 16 i ∧
      (errInfoOf (.missingCode c i)).extractLsb' 16 8 = c ∧ (errInfoOf (.missingCode c i)).extractLsb' 24 8 = 0#8 := by
  have hc := c.isLt
  have hfield (start len : Nat) : ((errInfoOf (.missingCode c i)).extractLsb' start len).toNat =
      (65536 * c.toNat + i) / 2 ^ start % 2 ^ len := by
    rw [BitVec.extractLsb'_toNat, errInfoOf_missingCode_toNat c hi, Nat.shiftRight_eq_div_pow]
  refine ⟨BitVec.eq_of_toNat_eq ?_, BitVec.eq_of_toNat_eq ?_, BitVec.eq_of_toNat_eq ?_⟩
  · rw [hfield, BitVec.toNat_ofNat]
    omega
  · rw [hfield]
    omega
  · rw [hfield, BitVec.toNat_ofNat]
    omega

theorem packInput_getElem? (s : State) {i : Nat} (hi : i < s.symCount.toNat) :
    (packInput s)[i]? = some (symRead s i) := by
  rw [packInput, List.getElem?_map, List.getElem?_range hi, Option.map_some]

/-- The search of PACK, told by index: it finds the lowest one without a valid entry (R120, R184). -/
theorem firstMissing_packInput {s : State} {i : Nat} (hi : i < s.symCount.toNat)
    (hmiss : ctValid s (symRead s i) = false) (hbefore : ∀ j < i, ctValid s (symRead s j) = true) :
    firstMissing s 0 (packInput s) = some (i, symRead s i) := by
  have hvalid : ∀ j < i, ∀ d, (packInput s)[j]? = some d → ctValid s d = true := by
    intro j hj d hd
    cases (packInput_getElem? s (hj.trans hi)).symm.trans hd
    exact hbefore j hj
  rw [firstMissing_of_first s 0 i _ _ (packInput_getElem? s hi) hmiss hvalid, Nat.zero_add]

/-- Settles O28: the search of PACK finds the lowest such index, and the overflow check comes after it. -/
theorem packReportsTheFirstMissingCode : Obligations.PackReportsTheFirstMissingCode := by
  intro s i hlegal hn hi hmiss hbefore
  obtain ⟨-, -, hdepth, -⟩ := hlegal
  have hindex : i < 65536 := by omega
  have hfirst := firstMissing_packInput hi hmiss hbefore
  obtain ⟨hidx, hsym, hzero⟩ := errInfoOf_missingCode_fields (symRead s i) hindex
  exact ⟨_, exec_pack_of_error (packRun_of_missing hn hfirst), rfl, hidx, hindex, hsym, hzero⟩

/-- LEN is a field of 6 bits, so in every state the input has at most 63 code bits a symbol (R40). -/
theorem packCodeBits_length_le_field (s : State) : (packCodeBits s).length ≤ 63 * s.symCount.toNat := by
  have hle := List.sum_le_card_nsmul ((List.range s.symCount.toNat).map fun i => (ctLen s (symRead s i)).toNat) 63
    (List.forall_mem_map.mpr fun i _ => Nat.le_of_lt_succ (ctLen s (symRead s i)).isLt)
  rw [packCodeBits_length]
  simpa [Nat.mul_comm] using hle

/-- Settles O29: with every code present PACK goes on to the size check, and the size fits ERR_INFO. -/
theorem packReportsOverflow : Obligations.PackReportsOverflow := by
  intro s hlegal hn hvalid bits p hover
  obtain ⟨-, -, hdepth, -⟩ := hlegal
  have hbits : packCodeBits s = bits := packCodeBits_eq s
  have hlen : (packStream bits s.config.padmode).length = 1 + (bits.length + p) / 8 :=
    packStream_length bits s.config.padmode
  have hrun := packRun_of_valid s hn (forall_mem_packInput.mpr hvalid)
  rw [hbits, hlen, if_pos hover] at hrun
  have hbound : bits.length ≤ 63 * s.symCount.toNat := hbits ▸ packCodeBits_length_le_field s
  have hpad : p ≤ 8 := padLen_le bits.length s.config.padmode
  exact ⟨_, exec_pack_of_error hrun, rfl, Nat.mod_eq_of_lt (by omega)⟩

end Sys2Proof.Machine

namespace Sys2Proof.Machine

/-! ## Reset and hazards (70_reset_and_hazards.md) -/

/-! ### The two resets (R210, R211, R213) -/

/-- `HardReset` is the reset state of the same block, beside what stands outside it (R210; logs 3 to 6, 14). -/
theorem hardReset_eq_resetWith (s : State) :
    hardReset s = { State.resetWith s.params with
      prog := s.prog, received := s.received, sched := s.sched, draws := s.draws, era := s.era + 1 } := rfl

/-- Settles O13: the scheduled rst is the hardware reset of the state with the turn taken. -/
theorem rstGivesTheResetState : Obligations.RstGivesTheResetState := by
  intro s rest hsched
  obtain ⟨-, -, hrst⟩ := stepTakesTheScheduledTurn s
  rw [hrst (by rw [hsched]; rfl), hardReset_eq_resetWith, passTurn_sched, hsched]
  rfl

/-- Settles O57: nothing is pending, no entry is valid and both buffers are empty. -/
theorem resetMeetsTheInvariant : Obligations.ResetMeetsTheInvariant := by
  have hreset (p : Params) (hp : p.Legal) : HbpInv (State.resetWith p) :=
    (hbpInv_iff _).mpr ⟨hp, .reset, fun c => entryOk_of_invalid (congrArg CtEntry.valid (ctGet_afterRst c)),
      .empty _, .empty _⟩
  exact ⟨hreset, hreset Params.example (by decide)⟩

theorem ctGet_hardReset (s : State) (c : Byte) : ctGet (hardReset s).ct c = CtEntry.afterRst := ctGet_afterRst c

theorem ctGet_softReset (s : State) (c : Byte) : ctGet (softReset s).ct c = entryInvalidate (ctGet s.ct c) :=
  ctGet_ctMap entryInvalidate s.ct c

/-- What the two resets share: the registers, and a table without a valid entry (R213). -/
theorem reset_cases {s t : State} (h : t = hardReset s ∨ exec .sreset s = .next t) :
    ∃ ct sym byte era, t = { resetRegisters s with ct := ct, symBuf := sym, byteBuf := byte, era := era } ∧
      ∀ c, (ctGet ct c).valid = false := by
  rcases h with rfl | h
  · exact ⟨_, _, _, _, rfl, fun c => congrArg CtEntry.valid (ctGet_hardReset s c)⟩
  · cases h
    exact ⟨_, _, _, _, rfl, fun c => congrArg CtEntry.valid (ctGet_softReset s c)⟩

/-- Settles O14: both columns have the shared registers, and each its own table and buffers. -/
theorem resetValues : Obligations.ResetValues := by
  intro s t h
  obtain ⟨ct, sym, byte, era, ht, hinvalid⟩ := reset_cases h
  have hstatus : statusWord statusReset = 0#32 := by decide
  have hconfig : configWord configReset = 0#32 := by decide
  have hrst : t = hardReset s → (∀ c, (ctGet t.ct c).code = none ∧ (ctGet t.ct c).len = none) ∧
      (∀ i, t.symBuf.read? i = none) ∧ ∀ j, t.byteBuf.read? j = none := by
    rintro rfl
    refine ⟨fun c => ?_, fun i => rfl, fun j => rfl⟩
    rw [ctGet_hardReset]
    exact ⟨rfl, rfl⟩
  have hsreset : exec .sreset s = .next t → (∀ c, (ctGet t.ct c).code = (ctGet s.ct c).code ∧
      (ctGet t.ct c).len = (ctGet s.ct c).len) ∧ t.symBuf = s.symBuf ∧ t.byteBuf = s.byteBuf := by
    intro hx
    cases hx
    refine ⟨fun c => ?_, rfl, rfl⟩
    rw [ctGet_softReset]
    exact ⟨rfl, rfl⟩
  subst ht
  exact ⟨rfl, rfl, rfl, rfl, rfl, hstatus, hconfig, rfl, rfl, rfl, rfl, rfl, hinvalid, rfl, rfl, hrst, hsreset⟩

/-! ### A block without a valid entry (R216) -/

theorem noMatch_of_noValid {s : State} (hct : ∀ c, ctValid s c = false) (bits : Bits) : NoMatch s bits := by
  refine fun j _ _ => matchCode_eq_none_iff.mpr fun c hc => ?_
  obtain ⟨hv, -⟩ := hasCode_iff.mp hc
  cases (hct c).symm.trans hv

/-- Settles O42: PACK stops at its first symbol, and nothing of the residual is matched, so all of it is the tail. -/
theorem emptyTableOutcomes : Obligations.EmptyTableOutcomes := by
  intro s hlegal hct
  refine ⟨fun hpos hn => ?_, fun hn hd => ?_⟩
  · have hfirst : firstMissing s 0 (packInput s) = some (0, symRead s 0) := firstMissing_packInput hpos (hct _) nofun
    refine ⟨_, exec_pack_of_error (packRun_of_missing hn hfirst), rfl, ?_⟩
    rw [errorReport_errInfo, errInfoOf_missingCode_toNat _ (by decide), Nat.add_zero, Nat.mul_comm]
  · have hrun := unpackRun_of_greedy hn hd (.rest _ (noMatch_of_noValid hct (residualOf s)))
    have hempty : residualOf s = [] ↔ residualLength s = 0 := by
      rw [← List.length_eq_zero_iff, residualOf_length]
    by_cases h0 : residualLength s = 0
    · rw [if_neg (not_not.mpr (hempty.mpr h0)), List.length_nil, if_neg (Nat.not_lt_zero _)] at hrun
      refine ⟨_, exec_unpack_of_ok hrun, ?_⟩
      rw [if_pos h0]
      exact ⟨rfl, rfl, rfl⟩
    · rw [if_pos (mt hempty.mp h0), residualOf_length, Nat.sub_self] at hrun
      refine ⟨_, exec_unpack_of_error hrun, ?_⟩
      rw [if_neg h0]
      rfl

/-! ### Progress (R52, R162, R212, R226) -/

/-- While BUSY = 1 a word is pending (R52), so the engine step answers a next state. -/
theorem engineStep_answers_of_busy {s : State} (h : HbpInv s) (hbusy : s.status.busy = true) :
    ∃ t, engineStep s = .next t := by
  obtain ⟨w, hw⟩ := Option.ne_none_iff_exists'.mp (h.busy_iff_pending.mp hbusy)
  exact engineStep_answers hw

theorem hbpInv_passTurn {s : State} (h : HbpInv s) : HbpInv (passTurn s) :=
  h.setHost s.prog s.received s.sched.tail s.draws

/-- Settles O58: of the four events of a step only the engine's could stop, and it has its pending word. -/
theorem theMachineNeverStops : Obligations.TheMachineNeverStops := by
  intro s h
  rcases step_cases s with ⟨-, hx⟩ | ⟨-, hx⟩ | ⟨-, -, hx⟩ | ⟨-, hbusy, hx⟩ <;> rw [hx]
  · exact ⟨_, rfl⟩
  · exact ⟨_, rfl⟩
  · exact ⟨_, rfl⟩
  · exact engineStep_answers_of_busy (hbpInv_passTurn h) hbusy

/-- One event of a running command ends it, by completion or by rst, or is the host's and takes a turn off the
schedule. -/
theorem step_of_busy {s : State} (h : HbpInv s) (hbusy : s.status.busy = true) :
    ∃ t, step s = .next t ∧
      (t.status.busy = false ∨
       HbpInv t ∧ t.status.busy = true ∧ t.sched.length + 1 = s.sched.length) := by
  obtain ⟨t, ht⟩ := theMachineNeverStops s h
  refine ⟨t, ht, ?_⟩
  rcases step_cases s with ⟨hturn, hx⟩ | ⟨-, hx⟩ | ⟨-, hidle, -⟩ | ⟨-, -, hx⟩
  · cases hx.symm.trans ht
    obtain ⟨hbusy', hsame⟩ := hostTurn_of_busy (s := passTurn s) hbusy
    obtain ⟨-, -, -, -, -, hsched⟩ := hsame.fields
    obtain ⟨hinv, -⟩ := everyStepKeepsTheInvariant s _ h ht
    have hne : s.sched ≠ [] := by
      intro hnil
      simp [nextTurn, hnil, hbusy] at hturn
    refine .inr ⟨hinv, hbusy', ?_⟩
    rw [hsched, passTurn_sched, List.length_tail]
    exact Nat.sub_add_cancel (List.length_pos_iff.mpr hne)
  · cases hx.symm.trans ht
    exact .inl rfl
  · cases hbusy.symm.trans hidle
  · obtain ⟨-, hend⟩ := engineStep_ends (hx.symm.trans ht)
    exact .inl hend

/-- Settles O59, by induction on the number of turns the schedule lists. -/
theorem everyRunningCommandEnds : Obligations.EveryRunningCommandEnds := by
  intro s
  induction hlen : s.sched.length generalizing s with
  | zero =>
    intro h hbusy
    obtain ⟨t, ht, hend | ⟨-, -, hlt⟩⟩ := step_of_busy h hbusy
    · exact ⟨1, t, by simp, run_succ_of_step 0 s t ht, hend⟩
    · omega
  | succ n ih =>
    intro h hbusy
    obtain ⟨t, ht, hend | ⟨hinv, hbusy', hlt⟩⟩ := step_of_busy h hbusy
    · exact ⟨1, t, by omega, run_succ_of_step 0 s t ht, hend⟩
    · obtain ⟨k, u, hk, hrun, hend⟩ := ih t (by omega) hinv hbusy'
      exact ⟨k + 1, u, by omega, (run_succ_of_step k s t ht).trans hrun, hend⟩

/-! ### The busy window (R220, R221) -/

/-- The two operations that read STATUS. -/
theorem readsStatus_iff (p : Params) (op : HostOp) :
    readsStatus p op = true ↔ op = .wait ∨ op = .read .w32 (p.blockBase + 0x008) := by
  cases op with
  | wait => simp [readsStatus]
  | write width addr v => simp [readsStatus]
  | read width addr => simp [readsStatus, hostOffset_eq_some p addr 0x008 (by decide)]

/-- The events by which a host observes completion on the bus. -/
theorem statusReadSeesIdle_iff (s : State) :
    statusReadSeesIdle s = true ↔ nextTurn s = .host ∧ s.status.busy = false ∧
      ∃ more, s.prog = .wait :: more ∨ s.prog = .read .w32 (s.params.blockBase + 0x008) :: more := by
  unfold statusReadSeesIdle
  cases hturn : nextTurn s with
  | host =>
    cases hprog : s.prog with
    | nil => simp
    | cons op more =>
      simp only [Bool.and_eq_true, Bool.not_eq_true', readsStatus_iff, List.cons.injEq, true_and]
      exact ⟨fun ⟨hop, hidle⟩ => ⟨hidle, more, hop.imp (⟨·, rfl⟩) (⟨·, rfl⟩)⟩,
        fun ⟨hidle, _, hop⟩ => ⟨hop.imp And.left And.left, hidle⟩⟩
  | engine => simp
  | rst => simp

/-- An accepted CMD write opens the window, whatever it was (R161, R220). -/
theorem step_cmdWrite {s : State} (u : Bool) {w : Word} {more : List HostOp} (hnext : HostNext s)
    (hidle : s.status.busy = false) (hprog : s.prog = .write .w32 (s.params.blockBase + 0x004) w :: more) :
    ∃ t, step s = .next t ∧ t.pending = some w ∧ windowAfter u s t = true := by
  obtain ⟨hhost, -⟩ := stepTakesTheScheduledTurn s
  obtain ⟨-, hwrite, -⟩ := hostOperations (passTurn s) .w32 (s.params.blockBase + 0x004) w more
  have hturn := hwrite hprog 0x004 (by decide) rfl
  rw [busWrite_cmd w (s := passTurn s) hidle] at hturn
  rw [hhost hnext, hturn]
  refine ⟨_, rfl, rfl, ?_⟩
  have hread : statusReadSeesIdle s = false := by
    rw [Bool.eq_false_iff, ne_eq, statusReadSeesIdle_iff, hprog]
    simp
  simp [windowAfter, nextTurn_of_hostNext hnext, hread, irqOut]

/-- A read that draws no free word: of an idle block, or of an offset that is defined while BUSY = 1 (R67). -/
theorem busRead_draws (width : Width) {a : Nat} {s : State}
    (h : s.status.busy = true → definedWhileBusy (targetOf a) = true) : (busRead width a s).1.draws = s.draws := by
  rcases busRead_cases width a s with ⟨-, hr⟩ | ⟨-, hbusy, hundefined, -⟩ | ⟨-, -, hr⟩
  · rw [hr]
  · cases (h hbusy).symm.trans hundefined
  · rw [hr]

/-- A write draws no free word. -/
theorem busWrite_draws (width : Width) (a : Nat) (v : Word) (s : State) :
    (busWrite width a v s).1.draws = s.draws := by
  rcases busWrite_cases width a v s with ⟨-, h⟩ | ⟨-, -, h⟩ | ⟨-, -, -, -, h⟩ | ⟨-, -, -, h⟩
  · rw [h]
  · rw [h]
  · rw [h, overrun_draws]
  · rw [h]
    cases targetOf a <;> rfl

/-- A host turn that keeps the window draws no free word: its read is of a defined offset, or of an idle block. -/
theorem hostTurn_draws {u : Bool} {s : State} (hkeeps : ∀ op ∈ s.prog.head?, respectsBusy u s op = true) :
    (hostTurn s).draws = s.draws := by
  rcases hostTurn_cases s with ⟨-, ht⟩ | ⟨width, addr, more, hprog, ht⟩ | ⟨width, addr, v, more, -, ht⟩ | ⟨more, -, ht⟩
  · rw [ht]
  · rw [ht]
    rcases transact_cases addr (busRead width) { s with prog := more } with ⟨-, h⟩ | ⟨a, ha, haddr, h⟩
    · rw [h, answer_draws]
    · rw [h, answer_draws]
      refine busRead_draws width fun hbusy => ?_
      have hop := hkeeps (.read width addr) (by simp [hprog])
      simpa [respectsBusy, inWindow_of_busy u s hbusy, (hostOffset_eq_some s.params addr a ha).mpr haddr] using hop
  · rw [ht]
    rcases transact_cases addr (fun a => busWrite width a v) { s with prog := more } with ⟨-, h⟩ | ⟨a, -, -, h⟩
    · rw [h, answer_draws]
    · rw [h, answer_draws, busWrite_draws]
  · rw [ht, answer_draws]
    split <;> rfl

theorem engineStep_draws {s t : State} (h : engineStep s = .next t) : t.draws = s.draws := by
  obtain ⟨w, -, ⟨i, -, hx⟩ | ⟨r, -, rfl⟩⟩ := engineStep_cases h
  · rcases exec_cases hx with
      ⟨-, rfl⟩ | ⟨-, rfl⟩ | ⟨-, rfl⟩ | ⟨e, -, rfl⟩ | ⟨r, -, -, rfl⟩ | ⟨r, -, -, rfl⟩ <;> simp
  · simp

/-- What a safe turn says of the host's next operation. -/
theorem respectsBusy_of_safeTurn {u : Bool} {s : State} (h : safeTurn u s = true) (hturn : nextTurn s = .host) :
    ∀ op ∈ s.prog.head?, respectsBusy u s op = true := by
  intro op hop
  obtain ⟨more, hprog⟩ := List.head?_eq_some_iff.mp hop
  rw [safeTurn, hturn, hprog] at h
  exact (Bool.and_eq_true_iff.mp h).1

/-- A safe turn draws no unspecified word of R67. -/
theorem step_draws_of_safeTurn {u : Bool} {s t : State} (h : safeTurn u s = true) (hstep : step s = .next t) :
    t.draws = s.draws := by
  rcases step_cases s with ⟨hturn, hx⟩ | ⟨-, hx⟩ | ⟨-, -, hx⟩ | ⟨-, -, hx⟩
  · cases hx.symm.trans hstep
    have hkeeps : ∀ op ∈ s.prog.head?, respectsBusy u s op = true := respectsBusy_of_safeTurn h hturn
    exact hostTurn_draws (s := passTurn s) hkeeps
  · cases hx.symm.trans hstep
    rfl
  · cases hx.symm.trans hstep
    rfl
  · exact engineStep_draws (s := passTurn s) (hx.symm.trans hstep)

/-- A safe turn loses no write (R188): in the window a host writes to STATUS and to reserved offsets alone. -/
theorem step_ovr_of_safeTurn {u : Bool} {s t : State} (h : safeTurn u s = true) (hstep : step s = .next t)
    (hbefore : s.status.ovr = false) : t.status.ovr = false := by
  by_contra hafter
  obtain ⟨hturn, hbusy, a, v, more, hprog, ha, h4, hne, hres⟩ :=
    ovrRisesOnlyByALostWrite s t hstep hbefore (Bool.eq_true_of_not_eq_false hafter)
  have hop := respectsBusy_of_safeTurn h hturn (.write .w32 (s.params.blockBase + a) v) (by simp [hprog])
  have hstatus : targetOf a ≠ .status := mt (targetOf_eq_status_iff h4).mp hne
  simp [respectsBusy, inWindow_of_busy u s hbusy, (hostOffset_eq_some s.params _ a ha).mpr rfl, isReserved, hres,
    hstatus] at hop

/-- A safe run is a safe turn and a safe run from the state it leads to. -/
theorem safeRun_succ {k : Nat} {u : Bool} {s : State} (h : safeRun (k + 1) u s = true) :
    safeTurn u s = true ∧ ∃ t, step s = .next t ∧ safeRun k (windowAfter u s t) t = true := by
  rw [safeRun, Bool.and_eq_true] at h
  obtain ⟨hturn, hrest⟩ := h
  refine ⟨hturn, ?_⟩
  cases hx : step s with
  | next t =>
    rw [hx] at hrest
    exact ⟨t, rfl, hrest⟩
  | fault r => simp [hx] at hrest
  | refused r => simp [hx] at hrest

/-- A host that keeps the window loses no write and draws no unspecified word along the run (R221). -/
theorem run_of_safeRun {k : Nat} {u : Bool} {s t : State} (h : safeRun k u s = true)
    (hrun : Host.Core.run core k s = .next t) :
    (s.status.ovr = false → t.status.ovr = false) ∧ t.draws = s.draws := by
  induction k generalizing u s with
  | zero =>
    cases hrun
    exact ⟨id, rfl⟩
  | succ k ih =>
    obtain ⟨hturn, m, hm, hrest⟩ := safeRun_succ h
    rw [run_succ_of_step k s m hm] at hrun
    obtain ⟨hovr, hdraws⟩ := ih hrest hrun
    exact ⟨fun hbefore => hovr (step_ovr_of_safeTurn hturn hm hbefore),
      hdraws.trans (step_draws_of_safeTurn hturn hm)⟩

/-- Settles O60: how the window opens, the three events that close it, and the runs that keep it. -/
theorem hostsKeepingTheWindowLoseNoWrite : Obligations.HostsKeepingTheWindowLoseNoWrite := by
  refine ⟨fun s u w more hnext hidle hprog => step_cmdWrite u hnext hidle hprog, fun s t u _ hopen => ?_,
    fun k u s t => run_of_safeRun⟩
  rw [windowAfter_eq_false u s t hopen, statusReadSeesIdle_iff]

end Sys2Proof.Machine
